-- ==== Sys2Proof/Word.lean ====
section
/-! DEFINITION. The two word types of the block: the 32-bit register word (R8, R62) and the byte of a byte string (R9). -/

namespace Sys2Proof

/-- A 32-bit register value, command word or SHA-1 word (R8, R11, R62). -/
abbrev Word := BitVec 32

/-- One byte of a byte string or of a buffer (R9). -/
abbrev Byte := BitVec 8

end Sys2Proof
end

