-- ==== Sys2Proof/Syntax.lean ====
section
/-! DEFINITION. The block's instructions: one constructor per row of spec/opcode_table.json (R83, R201, R202), and the
form in which an instruction reaches the block (a word written to CMD or to CTRL, R24, R25). -/

namespace Sys2Proof

/-- The eleven commands of R83, the soft reset of R202, and the ILLEGAL command of R201. SHA_FINAL carries its ARG
(R81); ILLEGAL carries the whole command word. -/
inductive Instr where
  /-- NOP, R200 -/
  | nop
  /-- SHA_INIT, R140 -/
  | shaInit
  /-- SHA_UPDATE, R141 -/
  | shaUpdate
  /-- SHA_FINAL n, R142: n is the 6-bit byte count of R81 -/
  | shaFinal (n : BitVec 6)
  /-- B32_DECODE, R100 -/
  | b32Decode
  /-- HMAC, R153 -/
  | hmac
  /-- TRUNC, R173 -/
  | trunc
  /-- CTR_TIME, R170 -/
  | ctrTime
  /-- HOTP, R175 -/
  | hotp
  /-- TOTP, R176 -/
  | totp
  /-- TOTP_SECRET, R177 -/
  | totpSecret
  /-- SRST, R202: a write to CTRL with bit 0 = 1 -/
  | srst
  /-- ILLEGAL, R201: every CMD word that R84 decodes as ILLEGAL -/
  | illegal (w : Word)
deriving DecidableEq, Repr

/-- The register whose write carries an instruction: CMD for the commands (R24), CTRL for SRST (R25). -/
inductive Port where
  | cmd | ctrl
deriving DecidableEq, Repr

/-- An encoded instruction: the register written and the 32-bit data word. -/
structure Frame where
  port : Port
  data : Word
deriving DecidableEq, Repr

end Sys2Proof
end

