-- ==== Sys2Proof/WellFormed.lean ====
section
/-! DEFINITION. The command rows of spec/opcode_table.json as match and mask, and the well-formedness of an instruction:
ILLEGAL may carry only a word that no row matches (R84, R201). Every other operand is bounded by its type (R81). -/

namespace Sys2Proof

/-- One row of the opcode table: a word w belongs to it when `w &&& mask = value`. -/
structure OpcodeRow where
  mnemonic : String
  value : Word
  mask : Word
deriving DecidableEq, Repr

/-- Does the word belong to the row? -/
def OpcodeRow.covers (r : OpcodeRow) (w : Word) : Bool := w &&& r.mask == r.value

/-- The rows of format CMDW, but for ILLEGAL, which is the word no row matches (R83). -/
def cmdRows : List OpcodeRow :=
  [ ⟨"NOP", 0x00000000#32, 0xFFFFFFFF#32⟩,
    ⟨"SHA_INIT", 0x00000001#32, 0xFFFFFFFF#32⟩,
    ⟨"SHA_UPDATE", 0x00000002#32, 0xFFFFFFFF#32⟩,
    ⟨"SHA_FINAL_n", 0x00000003#32, 0xFFFFC0FF#32⟩,
    ⟨"B32_DECODE", 0x00000010#32, 0xFFFFFFFF#32⟩,
    ⟨"HMAC", 0x00000020#32, 0xFFFFFFFF#32⟩ ] ++
  [ ⟨"TRUNC", 0x00000030#32, 0xFFFFFFFF#32⟩,
    ⟨"CTR_TIME", 0x00000040#32, 0xFFFFFFFF#32⟩,
    ⟨"HOTP", 0x00000041#32, 0xFFFFFFFF#32⟩,
    ⟨"TOTP", 0x00000042#32, 0xFFFFFFFF#32⟩,
    ⟨"TOTP_SECRET", 0x00000043#32, 0xFFFFFFFF#32⟩ ]

/-- The row of format CTRL: data bit 0 = 1, the other bits ignored (R25, R202). -/
def srstRow : OpcodeRow := ⟨"SRST", 0x00000001#32, 0x00000001#32⟩

/-- A command word that some row of R83 covers. -/
def legalWord (w : Word) : Bool := cmdRows.any (·.covers w)

/-- The check of an instruction as syntax. -/
def Instr.wf : Instr → Bool
  | .illegal w => !legalWord w
  | .nop => true
  | .shaInit => true
  | .shaUpdate => true
  | .shaFinal _ => true
  | .b32Decode => true
  | .hmac => true
  | .trunc => true
  | .ctrTime => true
  | .hotp => true
  | .totp => true
  | .totpSecret => true
  | .srst => true

/-- Well-formed instructions: what the block can be asked to run. -/
abbrev Instr.WellFormed (i : Instr) : Prop := i.wf = true

end Sys2Proof
end

