-- ==== Sys2Proof/Decode.lean ====
section
/-! DEFINITION. The decoder of R84 (CMD words) and R25 (CTRL data), total on every word; the encoder written from the
encodings of R80, R81 and R83; and the decoder of a word numbered as spec/opcode_table.json numbers it. -/

namespace Sys2Proof

/-- Why a write carries no instruction. A CMD word always carries one (R84): only CTRL data can be turned away. -/
inductive DecodeError where
  /-- CTRL data with bit 0 = 0: "writing 0 has no effect" (R25) -/
  | noSoftReset (data : Word)
deriving DecidableEq, Repr

/-- OP, bits [7:0] of a command word (R80). -/
def opField (w : Word) : BitVec 8 := w.extractLsb' 0 8

/-- ARG, bits [13:8] of a command word (R80). -/
def argField (w : Word) : BitVec 6 := w.extractLsb' 8 6

/-- RSV, bits [31:14] of a command word (R80). -/
def rsvField (w : Word) : BitVec 18 := w.extractLsb' 14 18

/-- Every opcode but SHA_FINAL requires ARG = 0 (R81, R84). -/
def withoutArg (w : Word) (i : Instr) : Instr := if argField w = 0#6 then i else .illegal w

/-- The decoder of R84: total, ILLEGAL being an instruction of its own (R201). -/
def decodeCmd (w : Word) : Instr :=
  if rsvField w ≠ 0#18 then .illegal w
  else
    match (opField w).toNat with
    | 0x00 => withoutArg w .nop
    | 0x01 => withoutArg w .shaInit
    | 0x02 => withoutArg w .shaUpdate
    | 0x03 => .shaFinal (argField w)
    | 0x10 => withoutArg w .b32Decode
    | 0x20 => withoutArg w .hmac
    | 0x30 => withoutArg w .trunc
    | 0x40 => withoutArg w .ctrTime
    | 0x41 => withoutArg w .hotp
    | 0x42 => withoutArg w .totp
    | 0x43 => withoutArg w .totpSecret
    | _ => .illegal w

/-- CTRL data: bit 0 asks for the soft reset, bits [31:1] are ignored (R25). -/
def decodeCtrl (data : Word) : Except DecodeError Instr :=
  if data.getLsbD 0 then .ok .srst else .error (.noSoftReset data)

/-- The instruction that a write of a data word to CMD or CTRL carries. -/
def decode (f : Frame) : Except DecodeError Instr :=
  match f.port with
  | .cmd => .ok (decodeCmd f.data)
  | .ctrl => decodeCtrl f.data

/-- A command word from its opcode and its ARG, with RSV = 0 (R80, R87). -/
def cmdWord (op : BitVec 8) (arg : BitVec 6) : Word := op.setWidth 32 ||| (arg.setWidth 32 <<< 8)

/-- The encoder: R83's opcode for each command, `0x03 | (n << 8)` for SHA_FINAL n (R87), the data 1 written to CTRL for
SRST (R202), and an illegal word as it stands. -/
def encode : Instr → Frame
  | .nop => ⟨.cmd, cmdWord 0x00#8 0#6⟩
  | .shaInit => ⟨.cmd, cmdWord 0x01#8 0#6⟩
  | .shaUpdate => ⟨.cmd, cmdWord 0x02#8 0#6⟩
  | .shaFinal n => ⟨.cmd, cmdWord 0x03#8 n⟩
  | .b32Decode => ⟨.cmd, cmdWord 0x10#8 0#6⟩
  | .hmac => ⟨.cmd, cmdWord 0x20#8 0#6⟩
  | .trunc => ⟨.cmd, cmdWord 0x30#8 0#6⟩
  | .ctrTime => ⟨.cmd, cmdWord 0x40#8 0#6⟩
  | .hotp => ⟨.cmd, cmdWord 0x41#8 0#6⟩
  | .totp => ⟨.cmd, cmdWord 0x42#8 0#6⟩
  | .totpSecret => ⟨.cmd, cmdWord 0x43#8 0#6⟩
  | .srst => ⟨.ctrl, 0x00000001#32⟩
  | .illegal w => ⟨.cmd, w⟩

/-- DESIGN CHOICE (log entry 3): the port of a table word. The table numbers the bits of CMD words and of the CTRL data
word alike and does not say in the word itself which register is written. Its only row that gives the word no bit above
bit 7 is SRST (mask 0x00000001), so a row of 1 to 8 bits is CTRL data and every other row is a CMD word. -/
def tablePort (nbits : Nat) : Port := if 0 < nbits ∧ nbits ≤ 8 then .ctrl else .cmd

/-- The frame of a word numbered as spec/opcode_table.json numbers it. -/
def tableFrame (nbits w : Nat) : Frame := ⟨tablePort nbits, BitVec.ofNat 32 w⟩

/-- The instruction the decoder reads from a word of the opcode table. -/
def decodeTableWord (nbits w : Nat) : Option Instr :=
  match decode (tableFrame nbits w) with
  | .ok i => some i
  | .error _ => none

end Sys2Proof
end

