-- ==== Sys2Proof/Config.lean ====
section
/-! DEFINITION. The parameters of the block: the fixed sizes of R7, the OPEN parameters that a rule uses (BASE,
BUS_ERROR_SIGNAL), and the free values (the unspecified reads of R70, the hidden engine state of R48). LATENCY is
plain data (the place of `Event.complete` among the events of `Machine.State`); RESET_KIND has no observable part
beyond the one reset event (93_implementation_defined.md section 1). -/

namespace Sys2Proof

/-- The eight primitive commands of R15; R48 lets the engine's hidden phase name one of them. -/
inductive Primitive where
  | nop | shaInit | shaUpdate | shaFinal | b32Decode | hmac | trunc | ctrTime
deriving DecidableEq, Repr, Inhabited

/-- The hidden state of R48, held only while a command runs. No rule gives a value to any of its fields at any moment,
and no access reads it, so the model takes the whole record as a free value (`Config.hiddenAtAccept`). -/
structure Hidden where
  /-- which primitive of a composite command is running -/
  phase : Primitive
  /-- the SHA-1 working variables a, b, c, d, e -/
  a : Word
  b : Word
  c : Word
  d : Word
  e : Word
  /-- the 16-word window of the message schedule -/
  schedule : Vector Word 16
  /-- the round index t, 0..79 -/
  t : Fin 80
  /-- the normalised HMAC key K0 (64 bytes) -/
  k0 : Vector Byte 64
  /-- the inner HMAC digest (20 bytes) -/
  inner : Vector Byte 20
  /-- the pre-hashed key, when KEY_LEN > 64 -/
  prehashed : Option (Vector Byte 20)
  /-- results not yet committed: (window offset, word) pairs -/
  uncommitted : List (Nat × Word)
deriving DecidableEq, Repr, Inhabited

namespace Config

/-- SECBUF, KEYBUF and MSGBUF sizes in bytes (R7). -/
def secBytes : Nat := 256
/-- KEYBUF size in bytes, floor(5*256/8) (R7). -/
def keyBytes : Nat := 160
/-- MSGBUF size in bytes, the HMAC message limit (R7). -/
def msgBytes : Nat := 64
/-- SHA-1 block size in bytes (R7). -/
def blockBytes : Nat := 64
/-- The register window, 4096 bytes (R7, R60). -/
def windowBytes : Nat := 4096
/-- The reset value of PERIOD, 30 seconds (R7, R35). -/
def periodReset : Word := 30#32
/-- The decimal code modulus, 10^6: six digits, fixed (R7, R172). -/
def codeModulus : Nat := 1000000

/-- The page number of the window: the OPEN parameter BASE is a multiple of 4096 (R7, R60), so it is 4096 times this. -/
opaque basePage : Nat

/-- The OPEN parameter BASE (R60). -/
def base : Nat := windowBytes * basePage

/-- The OPEN parameter BUS_ERROR_SIGNAL (R63): how the platform signals an error response. No rule reads it. -/
opaque busErrorSignal : Nat

/-- FREE VALUE (R70): the value of the n-th unspecified read while BUSY = 1. -/
opaque unspecifiedRead : Nat → Word

/-- FREE VALUE (R48): what the engine holds hidden once it has accepted a command. -/
opaque hiddenAtAccept : Nat → Hidden

end Config
end Sys2Proof
end

