-- ==== Sys2Proof/Machine/State.lean ====
section
/-! DEFINITION. The state of the block (R20): every register, field and buffer of R21, the hidden engine state of R48,
and the model's own fields: the inputs still to come, the host's responses, and the counter of the free values. Memory
is the byte buffers of the register window, keyed by window offset. -/

namespace Sys2Proof.Machine

/-- Why a step could stop with a fault. The block has no such case: an error is a completion status (R210), a refused
bus access is an error response after which the block goes on (R63, R217), and decoding is total (R84). So this type
has no constructor: nobody raises a fault (safe). -/
inductive Fault
deriving DecidableEq, Repr

/-- Why a step could refuse an instruction. -/
inductive Refusal where
  /-- raised by an arm of `exec` whose instruction has no meaning yet (safe: the machine stops); no arm raises it -/
  | notModelled (mnemonic : String)
deriving DecidableEq, Repr

/-- The SHA-1 chaining state H0..H4 (R42). -/
structure HashState where
  h0 : Word
  h1 : Word
  h2 : Word
  h3 : Word
  h4 : Word
deriving DecidableEq, Repr

/-- The six characters of the decimal code, c0 the most significant (R40). -/
structure CodeAscii where
  c0 : Byte
  c1 : Byte
  c2 : Byte
  c3 : Byte
  c4 : Byte
  c5 : Byte
deriving DecidableEq, Repr

/-- The bytes of BLK, MSGBUF, KEYBUF and SECBUF that are not zero, by window offset, offsets strictly rising. A byte
that is not listed reads 0x00, its reset value (R41, R43, R44, R45). -/
abbrev Memory := List Host.Cell

/-- What one bus transaction asks for (R79). -/
inductive BusOp where
  | read
  | write (v : Word)
deriving DecidableEq, Repr

/-- A transaction at the slave port: window offset (`bus_addr`, 12 bits, R78), size in bytes, read or write. -/
structure BusAccess where
  off : BitVec 12
  size : Nat
  op : BusOp
deriving DecidableEq, Repr

/-- A host transaction by physical address: `MemRead(addr, size)` or `MemWrite(addr, size, v)` (R79). -/
structure MemAccess where
  addr : Nat
  size : Nat
  op : BusOp
deriving DecidableEq, Repr

/-- One thing that can happen to the block next (R16, R79, R240). -/
inductive Event where
  /-- a transaction that has reached the slave port -/
  | bus (a : BusAccess)
  /-- a host transaction by physical address -/
  | mem (a : MemAccess)
  /-- the engine's completion step; it can be taken only while BUSY = 1 (R71) -/
  | complete
  /-- hardware reset: `rst` is asserted (R240) -/
  | hardReset
deriving DecidableEq, Repr

/-- What the host sees of one of its transactions (R79). -/
inductive Response where
  /-- a read's data -/
  | data (v : Word)
  /-- a write's normal response -/
  | ok
  /-- a refused read: its data is 0x00000000, and the error is signalled as BUS_ERROR_SIGNAL says (R63) -/
  | readError (v : Word) (signal : Nat)
  /-- a refused write (R63) -/
  | writeError (signal : Nat)
  /-- the address is outside the window: the access does not reach the block (R77) -/
  | notReached
deriving DecidableEq, Repr

/-- The state of the block (R20). -/
structure State where
  /-- CMD, the last accepted command word (R24) -/
  cmd : Word
  /-- STATUS[0] BUSY (R26) -/
  busy : Bool
  /-- STATUS[1] DONE (R26) -/
  done : Bool
  /-- STATUS[2] ERR (R26) -/
  err : Bool
  /-- STATUS[3] OVR (R26) -/
  ovr : Bool
  /-- STATUS[4] KEYVALID (R46) -/
  keyvalid : Bool
  /-- IRQEN[3:1]: bit 0 is DONE_IE, bit 1 ERR_IE, bit 2 OVR_IE (R28) -/
  irqen : BitVec 3
  /-- ERRCODE[7:0] (R29) -/
  errcode : BitVec 8
  /-- ERRINFO[23:0] (R30) -/
  errinfo : BitVec 24
  /-- SEC_LEN (R31) -/
  secLen : BitVec 16
  /-- KEY_LEN (R32) -/
  keyLen : BitVec 16
  /-- MSG_LEN (R33) -/
  msgLen : BitVec 16
  /-- TIME_HI:TIME_LO (R34) -/
  time : BitVec 64
  /-- PERIOD (R35) -/
  period : Word
  /-- LEN_HI:LEN_LO, the SHA-1 bit count (R36) -/
  len : BitVec 64
  /-- CTR_HI:CTR_LO, the moving factor (R37) -/
  ctr : BitVec 64
  /-- DBC[30:0] (R38) -/
  dbc : BitVec 31
  /-- CODE[19:0] (R39) -/
  code : BitVec 20
  /-- CODE_ASCII0 and CODE_ASCII1 (R40) -/
  ascii : CodeAscii
  /-- H0..H4 (R42) -/
  hash : HashState
  /-- BLK, MSGBUF, KEYBUF and SECBUF (R41, R43, R44, R45) -/
  mem : Memory
  /-- the engine's hidden state, held only while a command runs (R48) -/
  hidden : Option Hidden
  /-- the model's own: the inputs still to come, in order (R68, R79) -/
  events : List Event
  /-- the model's own: the responses the host has got, the latest first (R79) -/
  responses : List Response
  /-- the model's own: how many free values have been drawn -/
  draws : Nat
deriving DecidableEq, Repr

/-- The initial SHA-1 constants, which are also the reset value of H0..H4 (R42, R120). -/
def HashState.iv : HashState :=
  ⟨0x67452301#32, 0xEFCDAB89#32, 0x98BADCFE#32, 0x10325476#32, 0xC3D2E1F0#32⟩

/-- The block right after reset (R241). No input is pending, the host has got no response, no free value is drawn. -/
def State.reset : State where
  cmd := 0
  busy := false
  done := false
  err := false
  ovr := false
  keyvalid := false
  irqen := 0
  errcode := 0
  errinfo := 0
  secLen := 0
  keyLen := 0
  msgLen := 0
  time := 0
  period := Config.periodReset
  len := 0
  ctr := 0
  dbc := 0
  code := 0
  ascii := ⟨0, 0, 0, 0, 0, 0⟩
  hash := HashState.iv
  mem := []
  hidden := none
  events := []
  responses := []
  draws := 0

end Sys2Proof.Machine
end

