-- ==== Sys2Proof/Machine/Ops.lean ====
section
/-! DEFINITION. The shared operations: big-endian conversions (R10), memory by byte and by word (R41, R43 to R45, R65),
register halves (R66), command errors and their completion status (R71, R210 to R212), `do` inside a composite (R174),
accept (R24) and reset (R240). -/

namespace Sys2Proof.Machine

/-! ### Big-endian conversions (R10) -/

/-- `BE32` of four bytes, the first in bits [31:24]. -/
def be32 (b0 b1 b2 b3 : Byte) : Word := b0 ++ b1 ++ b2 ++ b3

/-- `bytesBE32`: the four bytes of a word, bits [31:24] first. -/
def bytesBE32 (w : Word) : List Byte :=
  [w.extractLsb' 24 8, w.extractLsb' 16 8, w.extractLsb' 8 8, w.extractLsb' 0 8]

/-- Bits [31:0] of a 64-bit register pair (R66). -/
def loHalf (x : BitVec 64) : Word := x.extractLsb' 0 32

/-- Bits [63:32] of a 64-bit register pair (R66). -/
def hiHalf (x : BitVec 64) : Word := x.extractLsb' 32 32

/-- The pair with its `_LO` half replaced (R66). -/
def setLo (x : BitVec 64) (v : Word) : BitVec 64 := hiHalf x ++ v

/-- The pair with its `_HI` half replaced (R66). -/
def setHi (x : BitVec 64) (v : Word) : BitVec 64 := v ++ loHalf x

/-- `bytesBE64`: the eight bytes of a 64-bit value, bits [63:56] first. -/
def bytesBE64 (x : BitVec 64) : List Byte := bytesBE32 (hiHalf x) ++ bytesBE32 (loHalf x)

/-- `zeros(n)` (R9). -/
def zeros (n : Nat) : List Byte := List.replicate n 0#8

/-- `xor(s, t)` of two byte strings of one length (R9). -/
def xorBytes (s t : List Byte) : List Byte := List.zipWith (· ^^^ ·) s t

/-! ### Memory -/

/-- What an unlisted byte reads as: its reset value 0x00 (R41, R43, R44, R45). -/
def Memory.unlisted : Byte := 0#8

/-- The byte at a window offset. -/
def Memory.read : Memory → Nat → Byte
  | [], _ => Memory.unlisted
  | (k, v) :: rest, a =>
    if a < k then Memory.unlisted else if a = k then v else Memory.read rest a

/-- A cell list with one more cell in front, unless the byte is what an unlisted byte reads as. -/
def Memory.push (a : Nat) (b : Byte) (m : Memory) : Memory :=
  if b = Memory.unlisted then m else (a, b) :: m

/-- The memory with one byte stored, in canonical form. -/
def Memory.write : Memory → Nat → Byte → Memory
  | [], a, b => Memory.push a b []
  | (k, v) :: rest, a, b =>
    if a < k then Memory.push a b ((k, v) :: rest)
    else if a = k then Memory.push a b rest
    else (k, v) :: Memory.write rest a b

/-- Every listed offset is above a bound, the offsets rise strictly, and no listed byte is the unlisted value. -/
def Memory.wfAbove : Option Nat → Memory → Bool
  | _, [] => true
  | bound, (k, v) :: rest =>
    (match bound with
      | none => true
      | some b => b < k) && v != Memory.unlisted && Memory.wfAbove (some k) rest

/-- The canonical form of memory. -/
def Memory.wf (m : Memory) : Bool := Memory.wfAbove none m

/-- `n` bytes from an offset on. -/
def Memory.readBytes (m : Memory) : Nat → Nat → List Byte
  | _, 0 => []
  | a, n + 1 => m.read a :: Memory.readBytes m (a + 1) n

/-- A byte string stored from an offset on. -/
def Memory.writeBytes (m : Memory) : Nat → List Byte → Memory
  | _, [] => m
  | a, b :: bs => Memory.writeBytes (m.write a b) (a + 1) bs

/-- The word at an offset: byte 4j in bits [31:24] of word j (R65). -/
def Memory.readWord (m : Memory) (a : Nat) : Word :=
  be32 (m.read a) (m.read (a + 1)) (m.read (a + 2)) (m.read (a + 3))

/-- A word stored at an offset, big-endian packed (R65). -/
def Memory.writeWord (m : Memory) (a : Nat) (v : Word) : Memory := m.writeBytes a (bytesBE32 v)

/-! ### The byte buffers: where R21 places them -/

/-- Window offset of BLKB[0] (R21, R41). -/
def blkOff : Nat := 0x080
/-- Window offset of MSGBUF[0] (R21, R43). -/
def msgOff : Nat := 0x0C0
/-- Window offset of KEYBUF[0] (R21, R44). -/
def keyOff : Nat := 0x100
/-- Window offset of SECBUF[0] (R21, R45). -/
def secOff : Nat := 0x200

/-! ### Command errors -/

/-- A length register, as BAD_LENGTH names it in INFO_HI (R212). -/
inductive LengthReg where
  | secLen | keyLen | msgLen
deriving DecidableEq, Repr

/-- The command errors of R211 with the information of R212. -/
inductive CmdError where
  /-- the command word decodes as ILLEGAL -/
  | illegalCmd (w : Word)
  /-- a secret byte outside the alphabet, at index i, as stored -/
  | invalidEncoding (i : Nat) (c : Byte)
  /-- HMAC with KEYVALID = 0 -/
  | noKey
  /-- a length register beyond its buffer -/
  | badLength (r : LengthReg) (v : BitVec 16)
  /-- CTR_TIME with PERIOD = 0 -/
  | divZero
deriving DecidableEq, Repr

/-- INFO_HI of BAD_LENGTH (R212). -/
def LengthReg.infoHi : LengthReg → BitVec 8
  | .secLen => 0x01#8
  | .keyLen => 0x02#8
  | .msgLen => 0x03#8

/-- ERRCODE (R211). -/
def CmdError.code : CmdError → BitVec 8
  | .illegalCmd _ => 0x01#8
  | .invalidEncoding _ _ => 0x02#8
  | .noKey => 0x03#8
  | .badLength _ _ => 0x04#8
  | .divZero => 0x05#8

/-- ERRINFO[23:0] (R212). -/
def CmdError.info : CmdError → BitVec 24
  | .illegalCmd w => w.extractLsb' 0 24
  | .invalidEncoding i c => c ++ BitVec.ofNat 16 i
  | .noKey => 0#24
  | .badLength r v => r.infoHi ++ v
  | .divZero => 0#24

/-- What running a command's rule gives: the state with the rule's effects, and the error it raised, if any (R71). -/
structure Ran where
  state : State
  error : Option CmdError
deriving DecidableEq, Repr

/-- A rule that ends without a raise. -/
def Ran.succeed (s : State) : Ran := ⟨s, none⟩

/-- A rule that ends with `raise`, its effects before the raise being in the state (R13). -/
def Ran.raise (s : State) (e : CmdError) : Ran := ⟨s, some e⟩

/-- `do` in a composite: the next primitive runs only if no error was raised before it (R174). -/
def Ran.andThen (r : Ran) (next : State → Ran) : Ran :=
  match r.error with
  | none => next r.state
  | some _ => r

/-- ERRCODE of a completion: 0 when nothing was raised (R71). -/
def Ran.code (r : Ran) : BitVec 8 :=
  match r.error with
  | none => 0x00#8
  | some e => e.code

/-- ERRINFO of a completion: 0 when nothing was raised (R71). -/
def Ran.info (r : Ran) : BitVec 24 :=
  match r.error with
  | none => 0#24
  | some e => e.info

/-- The completion step (R71): the effects stay, the status is written, BUSY falls. This is the block's whole reporting of
an error: the completion status of R210. The hidden state does not survive it (R48). -/
def complete (r : Ran) : State :=
  { r.state with
    errcode := r.code
    errinfo := r.info
    err := r.code != 0x00#8
    done := true
    busy := false
    hidden := none }

/-! ### Accept, reset, responses -/

/-- Accept (R24). The engine takes up hidden state, whose content is a free value (R48). -/
def accept (s : State) (w : Word) : State :=
  { s with
    cmd := w
    busy := true
    done := false
    err := false
    errcode := 0x00#8
    errinfo := 0#24
    hidden := some (Config.hiddenAtAccept s.draws)
    draws := s.draws + 1 }

/-- Reset, hard (R240) or soft (R202): every register, field and buffer gets its reset value, and a command that has not
completed is cancelled (R243). What is outside the block stays: the inputs still to come, the host's responses and the
count of free values. -/
def resetBlock (s : State) : State :=
  { State.reset with events := s.events, responses := s.responses, draws := s.draws }

/-- The host gets a response to a transaction. -/
def respond (s : State) (r : Response) : State := { s with responses := r :: s.responses }

end Sys2Proof.Machine
end

