-- ==== Sys2Proof/Machine/Operands.lean ====
section
/-! DEFINITION. The operand forms of the commands: the fixed registers and buffers that a command's rule names (R80, R89),
the one operand in the word (R81), and the length checks (R214). -/

namespace Sys2Proof.Machine

/-- SHA_FINAL's byte count n = zext_32(CMD[13:8]), 0..63 (R81). -/
def tailCount (n : BitVec 6) : Nat := n.toNat

/-- BLKB[0..64) (R41). -/
def blockOf (s : State) : List Byte := s.mem.readBytes blkOff Config.blockBytes

/-- BLKB[0..n): SHA_FINAL's tail (R142). -/
def tailOf (s : State) (n : BitVec 6) : List Byte := s.mem.readBytes blkOff (tailCount n)

/-- SECBUF[0..SEC_LEN): the secret (R45, R100). -/
def secretOf (s : State) : List Byte := s.mem.readBytes secOff s.secLen.toNat

/-- KEYBUF[0..KEY_LEN): the key (R44, R153). -/
def keyOf (s : State) : List Byte := s.mem.readBytes keyOff s.keyLen.toNat

/-- MSGBUF[0..MSG_LEN): the message (R43, R153). -/
def messageOf (s : State) : List Byte := s.mem.readBytes msgOff s.msgLen.toNat

/-- The digest view D = bytesBE32(H0) || ... || bytesBE32(H4) (R42, R126). -/
def digestOf (h : HashState) : List Byte :=
  bytesBE32 h.h0 ++ bytesBE32 h.h1 ++ bytesBE32 h.h2 ++ bytesBE32 h.h3 ++ bytesBE32 h.h4

/-- The state with BLKB[0..64) replaced (R41). -/
def setBlock (s : State) (bs : List Byte) : State := { s with mem := s.mem.writeBytes blkOff bs }

/-- SEC_LEN > 256 (R100). -/
def secLenBad (s : State) : Bool := Config.secBytes < s.secLen.toNat

/-- KEY_LEN > 160 (R153). -/
def keyLenBad (s : State) : Bool := Config.keyBytes < s.keyLen.toNat

/-- MSG_LEN > 64 (R153). -/
def msgLenBad (s : State) : Bool := Config.msgBytes < s.msgLen.toNat

end Sys2Proof.Machine
end

