-- ==== Sys2Proof/Machine/Base32.lean ====
section
/-! DEFINITION. The Base32 decoding function (R101 to R106), the RFC 4648 encoder that R108 speaks of, and the command
B32_DECODE (R100). -/

namespace Sys2Proof.Machine

/-! ### Decoding -/

/-- The secret without its trailing `=` bytes, whatever their count (R101). -/
def stripPad (s : List Byte) : List Byte := (s.reverse.dropWhile (· == 0x3D#8)).reverse

/-- ASCII `a`-`z` folded to `A`-`Z`, every other byte unchanged (R102). -/
def foldCase (c : Byte) : Byte := if 0x61 ≤ c.toNat ∧ c.toNat ≤ 0x7A then c - 0x20#8 else c

/-- The 5-bit value of a folded byte, none outside the alphabet (R103). -/
def alphabetValue (c : Byte) : Option Nat :=
  if 0x41 ≤ c.toNat ∧ c.toNat ≤ 0x5A then some (c.toNat - 0x41)
  else if 0x32 ≤ c.toNat ∧ c.toNat ≤ 0x37 then some (c.toNat - 0x32 + 26)
  else none

/-- What decoding a secret gives (R106). -/
inductive Decoded where
  | bytes (k : List Byte)
  | invalid (i : Nat) (c : Byte)
deriving DecidableEq, Repr

/-- R106's loop from index i on: `acc` holds the `nbits` bits not yet put out, `k` the bytes put out. -/
def scan : List Byte → Nat → Nat → Nat → List Byte → Decoded
  | [], _, _, _, k => .bytes k
  | c :: rest, i, acc, nbits, k =>
    match alphabetValue (foldCase c) with
    | none => .invalid i c
    | some v =>
      let acc := acc * 32 + v
      let nbits := nbits + 5
      if 8 ≤ nbits then
        scan rest (i + 1) (acc % 2 ^ (nbits - 8)) (nbits - 8)
          (k ++ [BitVec.ofNat 8 (acc / 2 ^ (nbits - 8))])
      else scan rest (i + 1) acc nbits k

/-- `Base32Decode` (R106). -/
def base32Decode (s : List Byte) : Decoded := scan (stripPad s) 0 0 0 []

/-! ### Encoding (R108; RFC 4648, which no command runs) -/

/-- The character of a 5-bit value: its place in `A`-`Z`, `2`-`7` (R103). -/
def alphabetChar (v : Nat) : Byte := if v < 26 then BitVec.ofNat 8 (0x41 + v) else BitVec.ofNat 8 (0x32 + (v - 26))

/-- The characters of a byte string after `nbits` ≤ 4 pending bits held in `acc`; the last group is filled with zero
bits. -/
def encodeBits : List Byte → Nat → Nat → List Byte
  | [], acc, nbits =>
    if nbits = 0 then [] else [alphabetChar (acc * 2 ^ (5 - nbits))]
  | b :: rest, acc, nbits =>
    let acc := acc * 256 + b.toNat
    let nbits := nbits + 8
    if 10 ≤ nbits then
      alphabetChar (acc / 2 ^ (nbits - 5)) :: alphabetChar (acc / 2 ^ (nbits - 10) % 32) ::
        encodeBits rest (acc % 2 ^ (nbits - 10)) (nbits - 10)
    else
      alphabetChar (acc / 2 ^ (nbits - 5)) :: encodeBits rest (acc % 2 ^ (nbits - 5)) (nbits - 5)

/-- The RFC 4648 encoding of a byte string without its padding. -/
def base32Encode (k : List Byte) : List Byte := encodeBits k 0 0

/-- The RFC 4648 encoding with its padding to a multiple of eight characters. -/
def base32EncodePadded (k : List Byte) : List Byte :=
  let e := base32Encode k
  e ++ List.replicate ((8 - e.length % 8) % 8) 0x3D#8

/-- The lower-case form of an encoding: `A`-`Z` to `a`-`z`. -/
def lowerCase (c : Byte) : Byte := if 0x41 ≤ c.toNat ∧ c.toNat ≤ 0x5A then c + 0x20#8 else c

/-! ### The command -/

/-- KEYBUF[0..160) with a key at its start and zeros after it (R44, R100). -/
def fillKeyBuf (m : Memory) (k : List Byte) : Memory :=
  m.writeBytes keyOff (k ++ zeros (Config.keyBytes - k.length))

/-- The state after a successful decode (R100). -/
def storeKey (s : State) (k : List Byte) : State :=
  { s with mem := fillKeyBuf s.mem k, keyLen := BitVec.ofNat 16 k.length, keyvalid := true }

/-- The state after a failed decode: no key (R100). -/
def eraseKey (s : State) : State :=
  { s with mem := fillKeyBuf s.mem [], keyLen := 0#16, keyvalid := false }

/-- B32_DECODE's rule (R100). -/
def runB32Decode (s : State) : Ran :=
  if secLenBad s then .raise s (.badLength .secLen s.secLen)
  else
    match base32Decode (secretOf s) with
    | .invalid i c => .raise (eraseKey s) (.invalidEncoding i c)
    | .bytes k => .succeed (storeKey s k)

/-- B32_DECODE (R100). -/
def execB32Decode (s : State) : Host.Outcome State Fault Refusal := .next (complete (runB32Decode s))

end Sys2Proof.Machine
end

