-- ==== Sys2Proof/Machine/Sha1.lean ====
section
/-! DEFINITION. The SHA-1 functions (R120 to R126, R143) and the commands SHA_INIT (R140), SHA_UPDATE (R141) and
SHA_FINAL n (R142). -/

namespace Sys2Proof.Machine

/-! ### The SHA-1 functions -/

/-- The round constant of round t, `K[floor(t/20)]` (R120). -/
def roundConstant (t : Nat) : Word :=
  match t / 20 with
  | 0 => 0x5A827999#32
  | 1 => 0x6ED9EBA1#32
  | 2 => 0x8F1BBCDC#32
  | _ => 0xCA62C1D6#32

/-- Ch, rounds 0-19 (R121). -/
def choice (b c d : Word) : Word := (b &&& c) ||| (~~~b &&& d)

/-- Parity, rounds 20-39 and 60-79 (R121). -/
def parity (b c d : Word) : Word := b ^^^ c ^^^ d

/-- Maj, rounds 40-59 (R121). -/
def majority (b c d : Word) : Word := (b &&& c) ||| (b &&& d) ||| (c &&& d)

/-- The round function f(t, b, c, d) (R121). -/
def roundFunction (t : Nat) (b c d : Word) : Word :=
  match t / 20 with
  | 0 => choice b c d
  | 1 => parity b c d
  | 2 => majority b c d
  | _ => parity b c d

/-- `ROTL_n` (R11). -/
def rotl (n : Nat) (x : Word) : Word := (x <<< n) ||| (x >>> (32 - n))

/-- The big-endian words of a byte string (R122). -/
def wordsOf : List Byte → List Word
  | b0 :: b1 :: b2 :: b3 :: rest => be32 b0 b1 b2 b3 :: wordsOf rest
  | _ => []

/-- `n` more words of the schedule, the latest word first: W[t-3], W[t-8], W[t-14] and W[t-16] stand at places 2, 7, 13
and 15 (R122). -/
def extendSchedule : Nat → List Word → List Word
  | 0, ws => ws
  | n + 1, ws =>
    extendSchedule n
      (rotl 1 (ws.getD 2 0 ^^^ ws.getD 7 0 ^^^ ws.getD 13 0 ^^^ ws.getD 15 0) :: ws)

/-- The 80-word message schedule of a 64-byte block, W[0] first (R122). -/
def schedule (block : List Byte) : List Word := (extendSchedule 64 (wordsOf block).reverse).reverse

/-- One round (R123): a, b, c, d, e stand in h0 to h4. -/
def roundStep (t : Nat) (w : Word) (v : HashState) : HashState where
  h0 := rotl 5 v.h0 + roundFunction t v.h1 v.h2 v.h3 + v.h4 + roundConstant t + w
  h1 := v.h0
  h2 := rotl 30 v.h1
  h3 := v.h2
  h4 := v.h3

/-- The rounds from round t on, one for each word of the schedule (R123). -/
def rounds : Nat → List Word → HashState → HashState
  | _, [], v => v
  | t, w :: ws, v => rounds (t + 1) ws (roundStep t w v)

/-- The feed-forward addition (R124). -/
def feedForward (h v : HashState) : HashState :=
  ⟨h.h0 + v.h0, h.h1 + v.h1, h.h2 + v.h2, h.h3 + v.h3, h.h4 + v.h4⟩

/-- The compression function (R124). -/
def compress (h : HashState) (block : List Byte) : HashState :=
  feedForward h (rounds 0 (schedule block) h)

/-- The compressions of a list of blocks, in order. -/
def compressAll (h : HashState) (blocks : List (List Byte)) : HashState := blocks.foldl compress h

/-- How many zero bytes R125's loop appends after a tail of n ≤ 63 bytes and the 0x80 byte: as many as bring the length to
56 modulo 64. -/
def padCount (n : Nat) : Nat := (119 - n) % 64

/-- The padded tail: one block's or two blocks' bytes (R125). -/
def padBytes (tail : List Byte) (l : BitVec 64) : List Byte :=
  tail ++ [0x80#8] ++ zeros (padCount tail.length) ++ bytesBE64 l

/-- `PadFinal` (R125). -/
def padFinal (tail : List Byte) (l : BitVec 64) : List (List Byte) :=
  let p := padBytes tail l
  if p.length = 64 then [p] else [p.take 64, p.drop 64]

/-- The last block of `PadFinal`, which SHA_FINAL leaves in BLK (R142). -/
def lastPadded (tail : List Byte) (l : BitVec 64) : List Byte := (padFinal tail l).getLastD []

/-- The compressions of the first q full blocks of a byte string (R143). -/
def absorb : Nat → HashState → List Byte → HashState
  | 0, h, _ => h
  | q + 1, h, data => absorb q (compress h (data.take 64)) (data.drop 64)

/-- The chaining state after hashing a byte string (R143). -/
def sha1State (data : List Byte) : HashState :=
  let q := data.length / 64
  let tail := data.drop (64 * q)
  let l := BitVec.ofNat 64 (512 * q + 8 * tail.length)
  compressAll (absorb q HashState.iv data) (padFinal tail l)

/-- `SHA1(data)`, 20 bytes (R143). -/
def sha1 (data : List Byte) : List Byte := digestOf (sha1State data)

/-! ### The commands -/

/-- SHA_INIT's rule (R140). -/
def runShaInit (s : State) : Ran :=
  .succeed { s with hash := HashState.iv, len := 0#64 }

/-- SHA_INIT (R140). -/
def execShaInit (s : State) : Host.Outcome State Fault Refusal := .next (complete (runShaInit s))

/-- SHA_UPDATE's rule (R141): LEN wraps modulo 2^64. -/
def runShaUpdate (s : State) : Ran :=
  .succeed { s with hash := compress s.hash (blockOf s), len := s.len + 512#64 }

/-- SHA_UPDATE (R141). -/
def execShaUpdate (s : State) : Host.Outcome State Fault Refusal := .next (complete (runShaUpdate s))

/-- LEN as SHA_FINAL n leaves it, and as it appends it (R142). -/
def finalLen (n : BitVec 6) (s : State) : BitVec 64 := s.len + BitVec.ofNat 64 (8 * tailCount n)

/-- SHA_FINAL n's rule (R142). -/
def runShaFinal (n : BitVec 6) (s : State) : Ran :=
  let tail := tailOf s n
  let l := finalLen n s
  .succeed (setBlock { s with len := l, hash := compressAll s.hash (padFinal tail l) } (lastPadded tail l))

/-- SHA_FINAL n (R142). -/
def execShaFinal (n : BitVec 6) (s : State) : Host.Outcome State Fault Refusal :=
  .next (complete (runShaFinal n s))

end Sys2Proof.Machine
end

