-- ==== Sys2Proof/Machine/Hmac.lean ====
section
/-! DEFINITION. The HMAC-SHA1 function (R150 to R152) and the command HMAC (R153). -/

namespace Sys2Proof.Machine

/-- `NormKey` (R150): a key of more than 64 bytes is hashed, and the result is zero-padded to 64 bytes. -/
def normKey (key : List Byte) : List Byte :=
  let k := if key.length > Config.blockBytes then sha1 key else key
  k ++ zeros (Config.blockBytes - k.length)

/-- `ipad` (R151). -/
def ipad : List Byte := List.replicate 64 0x36#8

/-- `opad` (R151). -/
def opad : List Byte := List.replicate 64 0x5C#8

/-- The inner digest of HMAC (R152). -/
def hmacInner (key msg : List Byte) : List Byte := sha1 (xorBytes (normKey key) ipad ++ msg)

/-- The outer message of HMAC, 84 bytes (R152). -/
def hmacOuterMessage (key msg : List Byte) : List Byte := xorBytes (normKey key) opad ++ hmacInner key msg

/-- `HMAC_SHA1` (R152). -/
def hmacSha1 (key msg : List Byte) : List Byte := sha1 (hmacOuterMessage key msg)

/-- The bit length of the 84-byte outer message, which HMAC leaves in LEN (R153). -/
def hmacLen : BitVec 64 := 672#64

/-- The last padded block of the outer hash, which HMAC leaves in BLK (R153). -/
def hmacBlock (inner : List Byte) : List Byte := inner ++ [0x80#8] ++ zeros 35 ++ bytesBE64 hmacLen

/-- HMAC's rule (R153); the checks stand in the order of R214. -/
def runHmac (s : State) : Ran :=
  if !s.keyvalid then .raise s .noKey
  else if keyLenBad s then .raise s (.badLength .keyLen s.keyLen)
  else if msgLenBad s then .raise s (.badLength .msgLen s.msgLen)
  else
    .succeed (setBlock
      { s with hash := sha1State (hmacOuterMessage (keyOf s) (messageOf s)), len := hmacLen }
      (hmacBlock (hmacInner (keyOf s) (messageOf s))))

/-- HMAC (R153). -/
def execHmac (s : State) : Host.Outcome State Fault Refusal := .next (complete (runHmac s))

end Sys2Proof.Machine
end

