-- ==== Sys2Proof/Machine/Otp.lean ====
section
/-! DEFINITION. The counter unit CTR_TIME (R170), dynamic truncation and decimal formatting (R171, R172), TRUNC (R173), and
the composite commands HOTP (R175), TOTP (R176) and TOTP_SECRET (R177). -/

namespace Sys2Proof.Machine

/-! ### Counter -/

/-- floor(TIME / PERIOD), exact, for PERIOD ≠ 0 (R170). -/
def counterOf (time : BitVec 64) (period : Word) : BitVec 64 := BitVec.ofNat 64 (time.toNat / period.toNat)

/-- CTR_TIME's rule (R170). -/
def runCtrTime (s : State) : Ran :=
  if s.period = 0#32 then .raise s .divZero
  else .succeed { s with ctr := counterOf s.time s.period }

/-- CTR_TIME (R170). -/
def execCtrTime (s : State) : Host.Outcome State Fault Refusal := .next (complete (runCtrTime s))

/-! ### Dynamic truncation and decimal formatting -/

/-- The offset of dynamic truncation: `D[19] & 0x0F` (R171). -/
def truncOffset (d : List Byte) : Nat := (d.getD 19 0 &&& 0x0F#8).toNat

/-- The dynamic binary code: bytes off..off+3 as a big-endian word without its top bit (R171). -/
def truncate (d : List Byte) : BitVec 31 :=
  let off := truncOffset d
  (be32 (d.getD off 0) (d.getD (off + 1) 0) (d.getD (off + 2) 0) (d.getD (off + 3) 0)).extractLsb' 0 31

/-- CODE: `dbc mod 1000000` (R172). -/
def codeOf (dbc : BitVec 31) : BitVec 20 := BitVec.ofNat 20 (dbc.toNat % Config.codeModulus)

/-- The decimal digit of weight 10^p as an ASCII character (R172). -/
def digitChar (code p : Nat) : Byte := BitVec.ofNat 8 (0x30 + code / 10 ^ p % 10)

/-- `Format` (R172): six digits, the most significant first. -/
def formatCode (code : BitVec 20) : CodeAscii where
  c0 := digitChar code.toNat 5
  c1 := digitChar code.toNat 4
  c2 := digitChar code.toNat 3
  c3 := digitChar code.toNat 2
  c4 := digitChar code.toNat 1
  c5 := digitChar code.toNat 0

/-- The CODE_ASCII0 word (R40). -/
def codeAscii0 (a : CodeAscii) : Word := be32 a.c0 a.c1 a.c2 a.c3

/-- The CODE_ASCII1 word: its last two bytes are 0x00 (R40). -/
def codeAscii1 (a : CodeAscii) : Word := be32 a.c4 a.c5 0#8 0#8

/-- TRUNC's rule (R173). -/
def runTrunc (s : State) : Ran :=
  let dbc := truncate (digestOf s.hash)
  .succeed { s with dbc := dbc, code := codeOf dbc, ascii := formatCode (codeOf dbc) }

/-- TRUNC (R173). -/
def execTrunc (s : State) : Host.Outcome State Fault Refusal := .next (complete (runTrunc s))

/-! ### Composite commands (R174) -/

/-- HOTP's first part: CounterBytes into MSGBUF[0..8), MSG_LEN = 8 (R175). -/
def loadCounter (s : State) : State :=
  { s with mem := s.mem.writeBytes msgOff (bytesBE64 s.ctr), msgLen := 8#16 }

/-- HOTP's rule (R175). -/
def runHotp (s : State) : Ran := (runHmac (loadCounter s)).andThen runTrunc

/-- HOTP (R175). -/
def execHotp (s : State) : Host.Outcome State Fault Refusal := .next (complete (runHotp s))

/-- TOTP's rule (R176). -/
def runTotp (s : State) : Ran := (runCtrTime s).andThen runHotp

/-- TOTP (R176). -/
def execTotp (s : State) : Host.Outcome State Fault Refusal := .next (complete (runTotp s))

/-- TOTP_SECRET's rule (R177). -/
def runTotpSecret (s : State) : Ran := (runB32Decode s).andThen runTotp

/-- TOTP_SECRET (R177). -/
def execTotpSecret (s : State) : Host.Outcome State Fault Refusal := .next (complete (runTotpSecret s))

end Sys2Proof.Machine
end

