-- ==== Sys2Proof/Machine/System.lean ====
section
/-! DEFINITION. The control commands: NOP (R200), ILLEGAL (R201) and the soft reset SRST (R202). -/

namespace Sys2Proof.Machine

/-- NOP (R200): nothing but its completion. -/
def execNop (s : State) : Host.Outcome State Fault Refusal := .next (complete (.succeed s))

/-- ILLEGAL (R201): ILLEGAL_CMD with w[23:0], and no other effect. -/
def execIllegal (w : Word) (s : State) : Host.Outcome State Fault Refusal :=
  .next (complete (.raise s (.illegalCmd w)))

/-- SRST (R202): the reset state; a command that has not completed is cancelled, so nothing completes. -/
def execSrst (s : State) : Host.Outcome State Fault Refusal := .next (resetBlock s)

end Sys2Proof.Machine
end

