-- ==== Sys2Proof/Machine/Dispatch.lean ====
section
/-! DEFINITION. The meaning of every instruction: one arm per constructor. For a CMD word the meaning is its completion
step (R71); for SRST it is the effect of the CTRL write (R202). -/

namespace Sys2Proof.Machine

def exec (i : Instr) (s : State) : Host.Outcome State Fault Refusal :=
  match i with
  | .nop => Sys2Proof.Machine.execNop s
  | .shaInit => Sys2Proof.Machine.execShaInit s
  | .shaUpdate => Sys2Proof.Machine.execShaUpdate s
  | .shaFinal n => Sys2Proof.Machine.execShaFinal n s
  | .b32Decode => Sys2Proof.Machine.execB32Decode s
  | .hmac => Sys2Proof.Machine.execHmac s
  | .trunc => Sys2Proof.Machine.execTrunc s
  | .ctrTime => Sys2Proof.Machine.execCtrTime s
  | .hotp => Sys2Proof.Machine.execHotp s
  | .totp => Sys2Proof.Machine.execTotp s
  | .totpSecret => Sys2Proof.Machine.execTotpSecret s
  | .srst => Sys2Proof.Machine.execSrst s
  | .illegal w => Sys2Proof.Machine.execIllegal w s

end Sys2Proof.Machine
end

