-- ==== Sys2Proof/Machine/Flags.lean ====
section
/-! DEFINITION. The STATUS bits as software sees them: the STATUS word (R26), its write-1-to-clear (R27), the overrun bit
(R69, R216), IRQEN (R28) and the interrupt output (R219). The block has no other flag (R49). -/

namespace Sys2Proof.Machine

/-- A one-bit field as a bit. -/
def bit (b : Bool) : BitVec 1 := BitVec.ofBool b

/-- The STATUS word: BUSY, DONE, ERR, OVR, KEYVALID in bits 0 to 4, the rest 0 (R26). -/
def statusWord (s : State) : Word :=
  0#27 ++ bit s.keyvalid ++ bit s.ovr ++ bit s.err ++ bit s.done ++ bit s.busy

/-- A write to STATUS clears DONE, ERR and OVR where the data has a 1 (R27). -/
def clearStatus (s : State) (v : Word) : State :=
  { s with
    done := s.done && !v.getLsbD 1
    err := s.err && !v.getLsbD 2
    ovr := s.ovr && !v.getLsbD 3 }

/-- A write that BUSY = 1 makes the block ignore sets OVR (R69). -/
def overrun (s : State) : State := { s with ovr := true }

/-- The IRQEN word: the enables in bits 1 to 3 (R28). -/
def irqenWord (s : State) : Word := 0#28 ++ s.irqen ++ 0#1

/-- A write to IRQEN stores bits [3:1] of the data (R28). -/
def setIrqen (s : State) (v : Word) : State := { s with irqen := v.extractLsb' 1 3 }

/-- The level interrupt output (R219). -/
def irq (s : State) : Bool :=
  (s.done && s.irqen.getLsbD 0) || (s.err && s.irqen.getLsbD 1) || (s.ovr && s.irqen.getLsbD 2)

end Sys2Proof.Machine
end

