-- ==== Sys2Proof/Machine/Bus.lean ====
section
/-! DEFINITION. The register window: the register map (R21), host reads and writes idle and busy (R22 to R45, R62 to R70),
refused accesses (R63), the window's place in the host's address space (R60, R77), the running of an accepted command
word (R71, R84), and what one input does (R16, R79). -/

namespace Sys2Proof.Machine

/-- What an offset of the window names (R21). Buffer words and reserved offsets carry or need no name of their own. -/
inductive Reg where
  | id | version | ctrl | cmd | status | irqen | errcode | errinfo
  | secLen | keyLen | msgLen | period | timeLo | timeHi | ctrLo | ctrHi | lenLo | lenHi
  | dbc | code | codeAscii0 | codeAscii1
  | h0 | h1 | h2 | h3 | h4
  | buffer (off : Nat)
  | reserved
deriving DecidableEq, Repr

/-- Is the offset one of a buffer's: BLK and MSGBUF and KEYBUF (0x080 to 0x19F), SECBUF (0x200 to 0x2FF) (R21)? -/
def isBufferOff (off : Nat) : Bool := (0x080 ≤ off && off < 0x1A0) || (0x200 ≤ off && off < 0x300)

/-- The register map (R21); every offset not listed is reserved (R64). -/
def regAt (off : Nat) : Reg :=
  match off with
  | 0x000 => .id
  | 0x004 => .version
  | 0x008 => .ctrl
  | 0x00C => .cmd
  | 0x010 => .status
  | 0x014 => .irqen
  | 0x018 => .errcode
  | 0x01C => .errinfo
  | 0x020 => .secLen
  | 0x024 => .keyLen
  | 0x028 => .msgLen
  | 0x02C => .period
  | 0x030 => .timeLo
  | 0x034 => .timeHi
  | 0x038 => .ctrLo
  | 0x03C => .ctrHi
  | 0x040 => .lenLo
  | 0x044 => .lenHi
  | 0x048 => .dbc
  | 0x04C => .code
  | 0x050 => .codeAscii0
  | 0x054 => .codeAscii1
  | 0x060 => .h0
  | 0x064 => .h1
  | 0x068 => .h2
  | 0x06C => .h3
  | 0x070 => .h4
  | _ => if isBufferOff off then .buffer off else .reserved

/-! ### Reads -/

/-- The committed value of a register or buffer word (R22 to R45). ERRCODE and ERRINFO read 0 while BUSY = 1 (R29,
R30). -/
def readReg (r : Reg) (s : State) : Word :=
  match r with
  | .id => 0x53484131#32
  | .version => 0x00070000#32
  | .ctrl => 0#32
  | .cmd => s.cmd
  | .status => statusWord s
  | .irqen => irqenWord s
  | .errcode => if s.busy then 0#32 else s.errcode.setWidth 32
  | .errinfo => if s.busy then 0#32 else s.errinfo.setWidth 32
  | .secLen => s.secLen.setWidth 32
  | .keyLen => s.keyLen.setWidth 32
  | .msgLen => s.msgLen.setWidth 32
  | .period => s.period
  | .timeLo => loHalf s.time
  | .timeHi => hiHalf s.time
  | .ctrLo => loHalf s.ctr
  | .ctrHi => hiHalf s.ctr
  | .lenLo => loHalf s.len
  | .lenHi => hiHalf s.len
  | .dbc => s.dbc.setWidth 32
  | .code => s.code.setWidth 32
  | .codeAscii0 => codeAscii0 s.ascii
  | .codeAscii1 => codeAscii1 s.ascii
  | .h0 => s.hash.h0
  | .h1 => s.hash.h1
  | .h2 => s.hash.h2
  | .h3 => s.hash.h3
  | .h4 => s.hash.h4
  | .buffer off => s.mem.readWord off
  | .reserved => 0#32

/-- The registers whose reads are defined while BUSY = 1 (R70). -/
def definedWhileBusy (r : Reg) : Bool :=
  match r with
  | .id | .version | .ctrl | .cmd | .status | .irqen | .errcode | .errinfo | .reserved => true
  | .secLen | .keyLen | .msgLen | .period | .timeLo | .timeHi | .ctrLo | .ctrHi | .lenLo | .lenHi => false
  | .dbc | .code | .codeAscii0 | .codeAscii1 | .h0 | .h1 | .h2 | .h3 | .h4 | .buffer _ => false

/-- A word read at an aligned offset. It changes no register (R67); an unspecified one is a fresh free value (R70). -/
def hostRead (off : Nat) (s : State) : State :=
  if s.busy && !definedWhileBusy (regAt off) then
    respond { s with draws := s.draws + 1 } (.data (Config.unspecifiedRead s.draws))
  else respond s (.data (readReg (regAt off) s))

/-! ### Writes -/

/-- The registers and buffer words whose write sets OVR while BUSY = 1: the RW ones and CMD (R69). -/
def writeDropped (r : Reg) : Bool :=
  match r with
  | .cmd | .secLen | .keyLen | .msgLen | .period | .timeLo | .timeHi | .ctrLo | .ctrHi | .lenLo | .lenHi => true
  | .h0 | .h1 | .h2 | .h3 | .h4 | .buffer _ => true
  | .id | .version | .ctrl | .status | .irqen | .errcode | .errinfo => false
  | .dbc | .code | .codeAscii0 | .codeAscii1 | .reserved => false

/-- A write while BUSY = 0, but for CTRL's (R24, R27, R28, R31 to R37, R41 to R45). Writes to RO registers and reserved
offsets have no effect (R14, R64). -/
def writeIdle (r : Reg) (v : Word) (s : State) : State :=
  match r with
  | .cmd => accept s v
  | .status => clearStatus s v
  | .irqen => setIrqen s v
  | .secLen => { s with secLen := v.extractLsb' 0 16 }
  | .keyLen => { s with keyLen := v.extractLsb' 0 16, keyvalid := true }
  | .msgLen => { s with msgLen := v.extractLsb' 0 16 }
  | .period => { s with period := v }
  | .timeLo => { s with time := setLo s.time v }
  | .timeHi => { s with time := setHi s.time v }
  | .ctrLo => { s with ctr := setLo s.ctr v }
  | .ctrHi => { s with ctr := setHi s.ctr v }
  | .lenLo => { s with len := setLo s.len v }
  | .lenHi => { s with len := setHi s.len v }
  | .h0 => { s with hash := { s.hash with h0 := v } }
  | .h1 => { s with hash := { s.hash with h1 := v } }
  | .h2 => { s with hash := { s.hash with h2 := v } }
  | .h3 => { s with hash := { s.hash with h3 := v } }
  | .h4 => { s with hash := { s.hash with h4 := v } }
  | .buffer off => { s with mem := s.mem.writeWord off v }
  | .id | .version | .ctrl | .errcode | .errinfo => s
  | .dbc | .code | .codeAscii0 | .codeAscii1 | .reserved => s

/-- A write while BUSY = 1, but for CTRL's (R69). -/
def writeBusy (r : Reg) (v : Word) (s : State) : State :=
  match r with
  | .status => clearStatus s v
  | .irqen => setIrqen s v
  | r => if writeDropped r then overrun s else s

/-- A write to a register other than CTRL. -/
def writeReg (r : Reg) (v : Word) (s : State) : State := if s.busy then writeBusy r v s else writeIdle r v s

/-- A write to CTRL, idle or busy: the soft reset where the data asks for it, else nothing (R25, R69, R202). -/
def writeCtrl (v : Word) (s : State) : Host.Outcome State Fault Refusal :=
  match decode ⟨.ctrl, v⟩ with
  | .ok i => exec i (respond s .ok)
  | .error _ => .next (respond s .ok)

/-- A word write at an aligned offset. -/
def hostWrite (off : Nat) (v : Word) (s : State) : Host.Outcome State Fault Refusal :=
  match regAt off with
  | .ctrl => writeCtrl v s
  | r => .next (respond (writeReg r v s) .ok)

/-! ### Transactions -/

/-- The only access the block supports: 32 bits at an offset that is a multiple of 4 (R62). -/
def supported (off size : Nat) : Bool := size == 4 && off % 4 == 0

/-- The error response of a refused access: a read's data is 0 (R63). -/
def refusedResponse (op : BusOp) : Response :=
  match op with
  | .read => .readError 0#32 Config.busErrorSignal
  | .write _ => .writeError Config.busErrorSignal

/-- A transaction at an offset of the window. A refused one changes nothing but what the host gets (R63). -/
def access (off size : Nat) (op : BusOp) (s : State) : Host.Outcome State Fault Refusal :=
  if supported off size then
    match op with
    | .read => .next (hostRead off s)
    | .write v => hostWrite off v s
  else .next (respond s (refusedResponse op))

/-- The window offset of a host physical address, none outside the window (R60, R77). -/
def windowOffset (addr : Nat) : Option Nat :=
  if Config.base ≤ addr ∧ addr < Config.base + Config.windowBytes then some (addr - Config.base) else none

/-- A host transaction by physical address: outside the window it does not reach the block (R77). -/
def memAccess (addr size : Nat) (op : BusOp) (s : State) : Host.Outcome State Fault Refusal :=
  match windowOffset addr with
  | some off => access off size op s
  | none => .next (respond s .notReached)

/-! ### The engine -/

/-- The completion step, if a command is in progress (R71): the accepted word is decoded and its instruction run. -/
def engineStep (s : State) : Host.Outcome State Fault Refusal :=
  if s.busy then exec (decodeCmd s.cmd) s else .next s

/-! ### Inputs -/

/-- What one input does. -/
def handle (e : Event) (s : State) : Host.Outcome State Fault Refusal :=
  match e with
  | .bus a => access a.off.toNat a.size a.op s
  | .mem a => memAccess a.addr a.size a.op s
  | .complete => engineStep s
  | .hardReset => .next (resetBlock s)

end Sys2Proof.Machine
end

