-- ==== Sys2Proof/Machine/Step.lean ====
section
/-! DEFINITION. One step of the block: the next input (R16, R68, R79) or, when no input is left, the engine's completion
step, which is always taken in the end (R71); and the placing of an instruction where the next step runs it. -/

namespace Sys2Proof.Machine

/-- One step. With no input left a running command completes, and an idle block stays as it is (R71, R229). -/
def step (s : State) : Host.Outcome State Fault Refusal :=
  match s.events with
  | [] => engineStep s
  | e :: rest => handle e { s with events := rest }

/-- A CMD word is placed as accepted with its completion next; CTRL data is placed as the host's next write (log
entry 3). -/
def State.withFetchWord (s : State) (nbits w : Nat) : State :=
  match tablePort nbits with
  | .cmd =>
    let t := accept s (BitVec.ofNat 32 w)
    { t with events := .complete :: s.events }
  | .ctrl => { s with events := .bus ⟨0x008#12, 4, .write (BitVec.ofNat 32 w)⟩ :: s.events }

end Sys2Proof.Machine
end

