-- ==== Sys2Proof/Machine/Assembler.lean ====
section
/-! DEFINITION. Host programs: the assembler syntax (R87), the pseudo-operations (R88) with their loops, and the running of
a program against the block. The host takes one access at a time and decides on what the block shows it; everything else
that can happen to the block, the engine's completion among it, falls between two of its turns (R68, R71, R79). -/

namespace Sys2Proof.Machine

/-! ### Transactions and command words (R79, R87) -/

/-- `MemWrite(BASE + off, 4, v)` at the port (R79, R87). -/
def writeEvent (off : BitVec 12) (v : Word) : Event := .bus ⟨off, 4, .write v⟩

/-- `MemRead(BASE + off, 4)` at the port (R79, R87). -/
def readEvent (off : BitVec 12) : Event := .bus ⟨off, 4, .read⟩

/-- Window offset of STATUS (R21, R26). -/
def statusOff : BitVec 12 := 0x010#12

/-- Window offset of BLK0 (R21, R41). -/
def blk0Off : BitVec 12 := 0x080#12

/-- The offset of the register whose write carries an instruction: CMD 0x00C, CTRL 0x008 (R21). -/
def portOff : Port → BitVec 12
  | .cmd => 0x00C#12
  | .ctrl => 0x008#12

/-! ### Syntax (R87, R88) -/

/-- One line of a host program (R87, R88). A register is named by its window offset. -/
inductive AsmLine where
  /-- `WR REG, v` -/
  | wr (off : BitVec 12) (v : Word)
  /-- `RD REG` -/
  | rd (off : BitVec 12)
  /-- a command's mnemonic; SRST is the line `WR CTRL, 1` (R202) -/
  | command (i : Instr)
  /-- `WAIT` -/
  | wait
  /-- `WAITIRQ`; the program must have set DONE_IE -/
  | waitIrq
  /-- `CLR` -/
  | clr
  /-- `WRBYTES BUF, bytes`: BUF by the offset of its word 0 -/
  | wrBytes (off : BitVec 12) (bytes : List Byte)
  /-- `SETLEN64 NAME, x`: NAME by the offset of its `_LO` half -/
  | setLen64 (off : BitVec 12) (x : BitVec 64)
  /-- `SHA1 data` -/
  | sha1 (data : List Byte)
deriving DecidableEq, Repr

/-- What the host does next: a base operation of R87, or one of the two loops of R88. -/
inductive HostOp where
  /-- one write transaction -/
  | write (off : BitVec 12) (v : Word)
  /-- one read transaction -/
  | read (off : BitVec 12)
  /-- `loop: RD STATUS; if bit 0 = 1 goto loop` -/
  | pollBusy
  /-- wait for `irq` -/
  | awaitIrq
deriving DecidableEq, Repr

/-! ### Expansion (R87, R88) -/

/-- A command line stands for one write of its word (R87). -/
def commandOp (i : Instr) : HostOp := .write (portOff (encode i).port) (encode i).data

/-- The words of `WRBYTES`: groups of four bytes, the last padded with 0x00 on the right (R88). -/
def packWords : List Byte → List Word
  | b0 :: b1 :: b2 :: b3 :: rest => be32 b0 b1 b2 b3 :: packWords rest
  | [b0, b1, b2] => [be32 b0 b1 b2 0#8]
  | [b0, b1] => [be32 b0 b1 0#8 0#8]
  | [b0] => [be32 b0 0#8 0#8 0#8]
  | [] => []

/-- Writes of words to one offset after the other. -/
def wordWrites : BitVec 12 → List Word → List HostOp
  | _, [] => []
  | off, w :: ws => .write off w :: wordWrites (off + 4#12) ws

/-- `WRBYTES` (R88). -/
def wrBytesOps (off : BitVec 12) (bytes : List Byte) : List HostOp := wordWrites off (packWords bytes)

/-- The SHA_UPDATE part of `SHA1 data` for its first q full chunks (R88). -/
def chunkOps : Nat → List Byte → List HostOp
  | 0, _ => []
  | q + 1, data =>
    wrBytesOps blk0Off (data.take 64) ++ [commandOp .shaUpdate, .pollBusy] ++ chunkOps q (data.drop 64)

/-- `SHA1 data` (R88, R143). -/
def sha1Ops (data : List Byte) : List HostOp :=
  let q := data.length / 64
  let tail := data.drop (64 * q)
  [commandOp .shaInit, .pollBusy] ++ chunkOps q data ++ wrBytesOps blk0Off tail ++
    [commandOp (.shaFinal (BitVec.ofNat 6 tail.length)), .pollBusy]

/-- The operations that one line stands for (R87, R88). -/
def lineOps : AsmLine → List HostOp
  | .wr off v => [.write off v]
  | .rd off => [.read off]
  | .command i => [commandOp i]
  | .wait => [.pollBusy]
  | .waitIrq => [.awaitIrq, .read statusOff]
  | .clr => [.write statusOff 0x0000000E#32]
  | .wrBytes off bytes => wrBytesOps off bytes
  | .setLen64 off x => [.write off (loHalf x), .write (off + 4#12) (hiHalf x)]
  | .sha1 data => sha1Ops data

/-- The operations of a host program. -/
def programOps (lines : List AsmLine) : List HostOp := lines.flatMap lineOps

/-! ### Running a host program -/

/-- The block and what a host still has to do with it. -/
structure HostRun where
  block : State
  todo : List HostOp
deriving DecidableEq, Repr

/-- The run after an input to the block, the host's operations left being those that the new state calls for. -/
def afterInput (e : Event) (s : State) (left : State → List HostOp) : Host.Outcome HostRun Fault Refusal :=
  match handle e s with
  | .next t => .next ⟨t, left t⟩
  | .fault r => .fault r
  | .refused r => .refused r

/-- Does the latest read show bit 0 = 1? -/
def lastReadBit0 (s : State) : Bool :=
  match s.responses with
  | .data v :: _ => v.getLsbD 0
  | _ => false

/-- The host's turn. `WAIT` ends on the first read of STATUS with BUSY = 0, and `WAITIRQ`'s wait ends when `irq` is 1,
whatever source asserts it (R88, R219). A host with nothing left to do leaves the block alone. -/
def hostTurn (r : HostRun) : Host.Outcome HostRun Fault Refusal :=
  match r.todo with
  | [] => .next r
  | .write off v :: rest => afterInput (writeEvent off v) r.block fun _ => rest
  | .read off :: rest => afterInput (readEvent off) r.block fun _ => rest
  | .pollBusy :: rest =>
    afterInput (readEvent statusOff) r.block fun t => if lastReadBit0 t then .pollBusy :: rest else rest
  | .awaitIrq :: rest => .next ⟨r.block, if irq r.block then rest else .awaitIrq :: rest⟩

/-- Whose turn it is: the host's, or anything else that can happen to the block between two host accesses (the engine's
completion, another host's access, hardware reset). -/
inductive Turn where
  | host
  | other (e : Event)
deriving DecidableEq, Repr

/-- One turn. -/
def takeTurn (k : Turn) (r : HostRun) : Host.Outcome HostRun Fault Refusal :=
  match k with
  | .host => hostTurn r
  | .other e => afterInput e r.block fun _ => r.todo

/-- A run of a host program under a schedule of turns. Where the completions stand in it is the latency, which no rule
fixes (R71). -/
def runTurns : List Turn → HostRun → Host.Outcome HostRun Fault Refusal
  | [], r => .next r
  | k :: ks, r =>
    match takeTurn k r with
    | .next r' => runTurns ks r'
    | .fault f => .fault f
    | .refused f => .refused f

end Sys2Proof.Machine
end

