-- ==== Sys2Proof/Safety.lean ====
section
/-! DEFINITION. What statements about the block are said in: a step that goes on, the invariant of the block's state, what
a running command may rely on, and what no access can see. -/

namespace Sys2Proof.Machine

/-- The outcome is a next state: neither a fault nor a refusal. -/
def GoesOn (o : Host.Outcome State Fault Refusal) : Prop := ∃ t, o = .next t

/-- The block's invariant: what every state a run reaches satisfies. -/
structure State.Inv (s : State) : Prop where
  /-- memory is in canonical form -/
  memWf : s.mem.wf = true
  /-- every listed byte lies in BLK, MSGBUF, KEYBUF or SECBUF (R21) -/
  inBuffers : ∀ c ∈ s.mem, isBufferOff c.1 = true
  /-- hidden state is held exactly while a command runs (R48) -/
  hiddenWhileBusy : s.hidden.isSome = s.busy
  /-- accept clears DONE, ERR, ERRCODE and ERRINFO, and they stay clear while BUSY = 1 (R24, R29, R30) -/
  busyIsClean : s.busy = true → s.done = false ∧ s.err = false ∧ s.errcode = 0#8 ∧ s.errinfo = 0#24
  /-- ERRCODE is one of the codes of R211 -/
  errcodeLegal : s.errcode.toNat ≤ 5
  /-- ERR is set only by a completion with ERRCODE ≠ 0 (R26, R71) -/
  errHasCode : s.err = true → s.errcode ≠ 0#8
  /-- ERRINFO is 0 after a success (R30) -/
  infoOnlyOnError : s.errcode = 0#8 → s.errinfo = 0#24
  /-- CODE is DBC mod 1000000 (R39) -/
  codeOfDbc : s.code = codeOf s.dbc
  /-- CODE_ASCII is CODE's decimal form, or no TRUNC has run since reset (R40) -/
  asciiOfCode : s.ascii = formatCode s.code ∨ (s.ascii = ⟨0, 0, 0, 0, 0, 0⟩ ∧ s.dbc = 0#31)

/-- The state after a command that raised no error and wrote nothing but its completion status (R71). -/
def State.succeeded (s : State) : State :=
  { s with busy := false, done := true, err := false, errcode := 0x00#8, errinfo := 0#24, hidden := none }

/-- The state after a command that wrote nothing and raised an error (R71, R210). -/
def State.failed (s : State) (code : BitVec 8) (info : BitVec 24) : State :=
  { s with busy := false, done := true, err := true, errcode := code, errinfo := info, hidden := none }

/-- The state with one more input in front of the others: what the next step meets. -/
def State.facing (s : State) (e : Event) : State := { s with events := e :: s.events }

/-- The offsets of the RW registers and buffer words, and of CMD (R21). -/
def rwOffset (o : Nat) : Prop :=
  o = 0x00C ∨ (0x020 ≤ o ∧ o < 0x048) ∨ (0x060 ≤ o ∧ o < 0x074) ∨ (0x080 ≤ o ∧ o < 0x1A0) ∨
    (0x200 ≤ o ∧ o < 0x300)

/-- The reserved offsets (R21). -/
def reservedOffset (o : Nat) : Prop :=
  (0x058 ≤ o ∧ o < 0x060) ∨ (0x074 ≤ o ∧ o < 0x080) ∨ (0x1A0 ≤ o ∧ o < 0x200) ∨ 0x300 ≤ o

/-- One instruction after another: the second runs where the first gives a next state. -/
def thenRun (o : Host.Outcome State Fault Refusal) (f : State → Host.Outcome State Fault Refusal) :
    Host.Outcome State Fault Refusal :=
  match o with
  | .next t => f t
  | .fault r => .fault r
  | .refused r => .refused r

/-- The SHA_UPDATE commands of R143's sequence: each of the first q chunks of the data is put in BLK and absorbed. -/
def updateChunks : Nat → List Byte → State → Host.Outcome State Fault Refusal
  | 0, _, s => .next s
  | q + 1, data, s =>
    thenRun (exec .shaUpdate (setBlock s (data.take 64))) (updateChunks q (data.drop 64))

/-- R143's whole sequence: SHA_INIT, the full chunks, then the tail in BLKB[0..r) and SHA_FINAL r. -/
def hashSequence (data : List Byte) (s : State) : Host.Outcome State Fault Refusal :=
  let q := data.length / 64
  let tail := data.drop (64 * q)
  thenRun (exec .shaInit s) fun s1 =>
    thenRun (updateChunks q data s1) fun s2 =>
      exec (.shaFinal (BitVec.ofNat 6 tail.length)) (setBlock s2 tail)

/-- Two states hold the same operands of every command: all that a command's rule reads (R71, R80). -/
structure SameOperands (s t : State) : Prop where
  cmd : s.cmd = t.cmd
  keyvalid : s.keyvalid = t.keyvalid
  secLen : s.secLen = t.secLen
  keyLen : s.keyLen = t.keyLen
  msgLen : s.msgLen = t.msgLen
  time : s.time = t.time
  period : s.period = t.period
  len : s.len = t.len
  ctr : s.ctr = t.ctr
  hash : s.hash = t.hash
  mem : s.mem = t.mem

/-- Two states hold the same results: what TRUNC writes. -/
structure SameResults (s t : State) : Prop where
  dbc : s.dbc = t.dbc
  code : s.code = t.code
  ascii : s.ascii = t.ascii

/-- Every byte of memory outside `n` bytes from `a` on reads the same in both states. -/
def MemSameOutside (s t : State) (a n : Nat) : Prop :=
  ∀ x, x < a ∨ a + n ≤ x → t.mem.read x = s.mem.read x

/-- The state without its hidden part: all that an access can see, now or later (R48). -/
def State.visible (s : State) : State := { s with hidden := none }

end Sys2Proof.Machine
end

