-- ==== Sys2Proof/Certificates/Slice0/Obligations.lean ====
section
/-! DEFINITION. The statements for the provers. Each docstring names the rules of spec/ it formalises or rests on. -/

open Sys2Proof Sys2Proof.Machine

/-! ### Encoding and decoding -/

/-- Decoding an encoded well-formed instruction gives it back: every command, every ARG of SHA_FINAL, SRST, and every
illegal word (R80 to R84, R202). -/
def Obligations.DecodeEncode : Prop :=
  ∀ i : Instr, i.WellFormed → decode (encode i) = .ok i

/-- Decoding loses nothing: a CMD word decodes to a well-formed instruction whose encoding is that word (R84). -/
def Obligations.EncodeDecode : Prop :=
  ∀ w : Word, (decodeCmd w).WellFormed ∧ encode (decodeCmd w) = ⟨.cmd, w⟩

/-- Words written out from R83's opcode map decode to the instructions they stand for. -/
def Obligations.DecodeOpcodeMap : Prop :=
  decodeCmd 0x00000000#32 = .nop ∧ decodeCmd 0x00000001#32 = .shaInit ∧ decodeCmd 0x00000002#32 = .shaUpdate ∧
  decodeCmd 0x00003F03#32 = .shaFinal 63#6 ∧ decodeCmd 0x00000010#32 = .b32Decode ∧
  decodeCmd 0x00000020#32 = .hmac ∧ decodeCmd 0x00000030#32 = .trunc ∧ decodeCmd 0x00000040#32 = .ctrTime ∧
  decodeCmd 0x00000041#32 = .hotp ∧ decodeCmd 0x00000042#32 = .totp ∧ decodeCmd 0x00000043#32 = .totpSecret ∧
  decodeCmd 0x00000102#32 = .illegal 0x00000102#32 ∧ decode ⟨.ctrl, 0x00000001#32⟩ = .ok .srst

/-- The illegal words are exactly those of R84: RSV ≠ 0 (R82), an OP outside the map, or an ARG on an opcode other than
SHA_FINAL's; each completes with ILLEGAL_CMD and no other effect. -/
def Obligations.IllegalWords : Prop :=
  ∀ w : Word,
    (decodeCmd w = .illegal w ↔
      rsvField w ≠ 0#18 ∨
      opField w ∉ [0x00#8, 0x01#8, 0x02#8, 0x03#8, 0x10#8, 0x20#8, 0x30#8, 0x40#8, 0x41#8, 0x42#8, 0x43#8] ∨
      (argField w ≠ 0#6 ∧ opField w ≠ 0x03#8)) ∧
    (decodeCmd w = .illegal w → ∀ s, exec (decodeCmd w) s = .next (s.failed 0x01#8 (w.extractLsb' 0 24)))

/-! ### The step -/

/-- While a command runs, its completion step is exec of the instruction that the accepted word decodes to (R71, R84). That it
is taken when the schedule says so, and at the latest when no input is left, is the model's choice of form for LATENCY,
and so is that a completion event met while idle does nothing: log entry 4. -/
def Obligations.StepRunsAcceptedCommand : Prop :=
  ∀ s : State,
    (s.busy = true → step (s.facing .complete) = exec (decodeCmd s.cmd) s) ∧
    (s.busy = true → s.events = [] → step s = exec (decodeCmd s.cmd) s) ∧
    (s.busy = false → step (s.facing .complete) = .next s) ∧
    (s.busy = false → s.events = [] → step s = .next s)

/-- A write to CTRL with bit 0 = 1 is exec of SRST, idle or busy; with bit 0 = 0 it has no effect; a read of CTRL returns 0
(R25). Right after reset the block is idle (R241). That no input is pending then is the model's choice: log entry 18. -/
def Obligations.CtrlWriteRunsSoftReset : Prop :=
  (∀ (s : State) (v : Word),
    (v.getLsbD 0 = true → decode ⟨.ctrl, v⟩ = .ok .srst ∧
      step (s.facing (writeEvent 0x008#12 v)) = exec .srst { s with responses := .ok :: s.responses }) ∧
    (v.getLsbD 0 = false →
      step (s.facing (writeEvent 0x008#12 v)) = .next { s with responses := .ok :: s.responses }) ∧
    step (s.facing (readEvent 0x008#12)) = .next { s with responses := .data 0#32 :: s.responses }) ∧
  State.reset.busy = false ∧ State.reset.events = []

/-- R24: accept and its frame, a CMD write while busy, and the read of CMD at any time. -/
def Obligations.CmdWriteAccepts : Prop :=
  (∀ (s : State) (w : Word),
    (s.busy = false → ∃ t, step (s.facing (writeEvent 0x00C#12 w)) = .next t ∧
      t = { s with
        cmd := w, busy := true, done := false, err := false, errcode := 0x00#8, errinfo := 0#24,
        hidden := t.hidden, draws := t.draws, responses := .ok :: s.responses }) ∧
    (s.busy = true → step (s.facing (writeEvent 0x00C#12 w)) =
      .next { s with ovr := true, responses := .ok :: s.responses }) ∧
    step (s.facing (readEvent 0x00C#12)) = .next { s with responses := .data s.cmd :: s.responses }) ∧
  State.reset.cmd = 0x00000000#32

/-- The completion of any accepted word: the status of R71 is written, what no command writes (R50) stays, and irq is DONE
under DONE_IE, an error under ERR_IE, or a pending overrun under OVR_IE (R219, R220). -/
def Obligations.CompletionStatus : Prop :=
  ∀ s : State, s.busy = true → ∃ t, step (s.facing .complete) = .next t ∧
    t.busy = false ∧ t.done = true ∧ (t.err = true ↔ t.errcode ≠ 0x00#8) ∧ (t.errcode = 0x00#8 → t.errinfo = 0#24) ∧
    t.hidden = none ∧ t.cmd = s.cmd ∧ t.ovr = s.ovr ∧ t.irqen = s.irqen ∧ t.secLen = s.secLen ∧ t.time = s.time ∧
    t.period = s.period ∧ t.events = s.events ∧ t.responses = s.responses ∧ t.draws = s.draws ∧
    irq t = (s.irqen.getLsbD 0 || (s.irqen.getLsbD 1 && (t.errcode != 0x00#8)) || (s.irqen.getLsbD 2 && s.ovr))

/-- No step stops the block: from every state the step gives a next state. That no step faults is read from R210 and R84
(the model's choice, log entry 11), and that a refused access (R63) is a response after which the block goes on is log
entry 2. -/
def Obligations.StepAlwaysGoesOn : Prop :=
  ∀ s : State, GoesOn (step s)

/-- An accepted command completes, or a reset cancels it (R71, R243). The rules give no bound (R252): that it takes at most one
step more than there are inputs left is the model's choice, the completion being taken at the latest when no input is
left (log entry 4). -/
def Obligations.CommandCompletes : Prop :=
  ∀ s : State, s.busy = true → ∃ k t, k ≤ s.events.length + 1 ∧ Sys2Proof.core.run k s = .next t ∧ t.busy = false

/-! ### Invariants and whole-machine rules -/

/-- The invariant holds right after reset (R241). -/
def Obligations.ResetInv : Prop := State.Inv State.reset

/-- Every step keeps the invariant: canonical memory inside the buffers, hidden state only while busy, a clean status
while busy, legal error codes, and results that agree with each other (R24, R26, R29, R30, R39, R40, R48, R211). -/
def Obligations.StepKeepsInv : Prop :=
  ∀ s t : State, s.Inv → step s = .next t → t.Inv

/-- R50's table for the commands: which instructions may write a register or buffer, over every completion. -/
def Obligations.WritersOfEachRegister : Prop :=
  ∀ (i : Instr) (s t : State), i ≠ .srst → s.mem.wf = true → exec i s = .next t →
    (t.secLen = s.secLen ∧ t.period = s.period ∧ t.time = s.time ∧ t.cmd = s.cmd ∧ t.irqen = s.irqen ∧
      t.ovr = s.ovr ∧ ∀ x, 0x200 ≤ x → t.mem.read x = s.mem.read x) ∧
    (i ∉ [.b32Decode, .totpSecret] → t.keyLen = s.keyLen ∧ t.keyvalid = s.keyvalid ∧
      ∀ x, 0x100 ≤ x → x < 0x1A0 → t.mem.read x = s.mem.read x) ∧
    (i ∉ [.hotp, .totp, .totpSecret] → t.msgLen = s.msgLen ∧
      ∀ x, 0x0C0 ≤ x → x < 0x100 → t.mem.read x = s.mem.read x) ∧
    (∀ x, 0x0C8 ≤ x → x < 0x100 → t.mem.read x = s.mem.read x) ∧
    (i ∉ [.ctrTime, .totp, .totpSecret] → t.ctr = s.ctr) ∧
    ((∀ n, i ≠ .shaFinal n) → i ∉ [.shaInit, .shaUpdate, .hmac, .hotp, .totp, .totpSecret] →
      t.hash = s.hash ∧ t.len = s.len) ∧
    ((∀ n, i ≠ .shaFinal n) → i ∉ [.hmac, .hotp, .totp, .totpSecret] →
      ∀ x, 0x080 ≤ x → x < 0x0C0 → t.mem.read x = s.mem.read x) ∧
    (i ∉ [.trunc, .hotp, .totp, .totpSecret] → t.dbc = s.dbc ∧ t.code = s.code ∧ t.ascii = s.ascii)

/-- While a command runs, an input that is not the soft reset (a word write to CTRL with bit 0 = 1, at the port or by
physical address) leaves its operands, the results, and the command in progress (R69, R71, R75); the soft reset gives the
reset state (R25, R202). That pending inputs and the draw count stay across a reset is the model's choice: log
entry 6. -/
def Obligations.BusyProtectsOperands : Prop :=
  ∀ (s t : State) (e : Event), s.busy = true → e ≠ .complete → e ≠ .hardReset →
    step (s.facing e) = .next t →
    let softReset := ∃ v : Word, v.getLsbD 0 = true ∧
      (e = writeEvent 0x008#12 v ∨ e = .mem ⟨Config.base + 0x008, 4, .write v⟩)
    (¬ softReset → t.busy = true ∧ SameOperands s t ∧ SameResults s t) ∧
    (softReset → t = { State.reset with events := s.events, responses := t.responses, draws := s.draws })

/-- Two states that differ in the hidden state alone step to states that agree in all else. R48 says that no register exposes
it and that only a read while BUSY = 1 could, whose value R70 leaves open: that such a read answers alike in both states
is the model's choice, its free value depending on the draw count alone (log entry 5). -/
def Obligations.HiddenIsInvisible : Prop :=
  ∀ (s t u : State) (h : Option Hidden), step s = .next t → step { s with hidden := h } = .next u →
    t.visible = u.visible

/-! ### Reset -/

/-- R241: the reset state, in one list. -/
def Obligations.ResetValues : Prop :=
  let r := State.reset
  r.cmd = 0x00000000#32 ∧ r.busy = false ∧ r.done = false ∧ r.err = false ∧ r.ovr = false ∧ r.keyvalid = false ∧
  r.irqen = 0#3 ∧ r.errcode = 0#8 ∧ r.errinfo = 0#24 ∧ r.secLen = 0#16 ∧ r.keyLen = 0#16 ∧ r.msgLen = 0#16 ∧
  r.time = 0#64 ∧ r.period = 30#32 ∧ r.len = 0#64 ∧ r.ctr = 0#64 ∧ r.dbc = 0#31 ∧ r.code = 0#20 ∧
  codeAscii0 r.ascii = 0#32 ∧ codeAscii1 r.ascii = 0#32 ∧
  r.hash = ⟨0x67452301#32, 0xEFCDAB89#32, 0x98BADCFE#32, 0x10325476#32, 0xC3D2E1F0#32⟩ ∧
  (∀ x, r.mem.read x = 0x00#8) ∧ r.hidden = none ∧ irq r = false ∧
  readReg .id r = 0x53484131#32 ∧ readReg .version r = 0x00070000#32

/-- Hardware reset and soft reset have the same effect, from every state: every register, field and buffer holds its reset
value (R240, R202). That what is outside the block (inputs, responses, drawn free values) stays is the model's choice:
log entry 6. -/
def Obligations.HardAndSoftReset : Prop :=
  ∀ s : State,
    step (s.facing .hardReset) = exec .srst s ∧
    exec .srst s = .next { State.reset with events := s.events, responses := s.responses, draws := s.draws }

/-- A reset while BUSY = 1 cancels the accepted command: the state is the reset state, ERRCODE and DONE are 0, and no completion
step follows (R243). That pending inputs and the draw count stay is the model's choice, log entry 6, and so is that a
completion event met while idle does nothing, log entry 4. -/
def Obligations.ResetCancelsCommand : Prop :=
  ∀ s : State, s.busy = true → ∀ e, e = Event.hardReset ∨ (∃ v : Word, v.getLsbD 0 = true ∧ e = writeEvent 0x008#12 v) →
    ∃ t, step (s.facing e) = .next t ∧
      t = { State.reset with events := s.events, responses := t.responses, draws := s.draws } ∧
      t.errcode = 0#8 ∧ t.done = false ∧ step (t.facing .complete) = .next t

/-! ### The register window -/

/-- R22, R23: ID and VERSION read their constants, and their writes are ignored, in every state, idle or busy. -/
def Obligations.IdAndVersion : Prop :=
  (0x53484131#32 = be32 0x53#8 0x48#8 0x41#8 0x31#8) ∧
  ∀ s : State,
    step (s.facing (readEvent 0x000#12)) = .next { s with responses := .data 0x53484131#32 :: s.responses } ∧
    step (s.facing (readEvent 0x004#12)) = .next { s with responses := .data 0x00070000#32 :: s.responses } ∧
    ∀ v, step (s.facing (writeEvent 0x000#12 v)) = .next { s with responses := .ok :: s.responses } ∧
      step (s.facing (writeEvent 0x004#12 v)) = .next { s with responses := .ok :: s.responses }

/-- R27: a write to STATUS clears DONE, ERR and OVR where the data has a 1 and leaves all else, idle or busy; and a read of
STATUS shows its five bits, the reserved bits being 0, with no side effect (R26). -/
def Obligations.StatusRegister : Prop :=
  (∀ (s : State) (v : Word), step (s.facing (writeEvent 0x010#12 v)) = .next { s with
    done := if v.getLsbD 1 then false else s.done
    err := if v.getLsbD 2 then false else s.err
    ovr := if v.getLsbD 3 then false else s.ovr
    responses := .ok :: s.responses }) ∧
  (∀ s : State, ∃ v : Word, step (s.facing (readEvent 0x010#12)) = .next { s with responses := .data v :: s.responses } ∧
    v.getLsbD 0 = s.busy ∧ v.getLsbD 1 = s.done ∧ v.getLsbD 2 = s.err ∧ v.getLsbD 3 = s.ovr ∧
    v.getLsbD 4 = s.keyvalid ∧ v.toNat < 2 ^ 5)

/-- R28: an IRQEN write stores bits [3:1] and nothing else, idle or busy; each stored bit enables its STATUS bit onto irq;
reserved bits read 0. -/
def Obligations.InterruptEnables : Prop :=
  (∀ (s : State) (v : Word), ∃ t, step (s.facing (writeEvent 0x014#12 v)) = .next t ∧
    t = { s with irqen := t.irqen, responses := .ok :: s.responses } ∧
    irq t = ((v.getLsbD 1 && s.done) || (v.getLsbD 2 && s.err) || (v.getLsbD 3 && s.ovr)) ∧
    step (t.facing (readEvent 0x014#12)) = .next { t with responses := .data (v &&& 0xE#32) :: t.responses }) ∧
  State.reset.irqen = 0#3

/-- Writes while BUSY = 1, at every aligned offset (R69): CTRL, STATUS and IRQEN act as usual; RW registers, buffer words and
CMD are dropped and set OVR; read-only and reserved offsets are ignored. That pending inputs and the draw count stay
across the soft reset is the model's choice: log entry 6. -/
def Obligations.BusyWrites : Prop :=
  ∀ (s : State) (off : BitVec 12) (v : Word), s.busy = true → off.toNat % 4 = 0 →
    (off = 0x008#12 → v.getLsbD 0 = true → step (s.facing (writeEvent off v)) =
      .next { State.reset with events := s.events, responses := .ok :: s.responses, draws := s.draws }) ∧
    (off = 0x008#12 → v.getLsbD 0 = false → step (s.facing (writeEvent off v)) =
      .next { s with responses := .ok :: s.responses }) ∧
    (off = 0x010#12 → step (s.facing (writeEvent off v)) = .next { s with
      done := s.done && !v.getLsbD 1, err := s.err && !v.getLsbD 2, ovr := s.ovr && !v.getLsbD 3,
      responses := .ok :: s.responses }) ∧
    (off = 0x014#12 → step (s.facing (writeEvent off v)) = .next { s with
      irqen := v.extractLsb' 1 3, responses := .ok :: s.responses }) ∧
    (rwOffset off.toNat → step (s.facing (writeEvent off v)) = .next { s with
      ovr := true, responses := .ok :: s.responses }) ∧
    (off ≠ 0x008#12 → off ≠ 0x010#12 → off ≠ 0x014#12 → ¬ rwOffset off.toNat →
      step (s.facing (writeEvent off v)) = .next { s with responses := .ok :: s.responses })

/-- Reads while BUSY = 1, at every aligned offset (R70): the listed and the reserved offsets return their defined values; any
other read returns some value and leaves every register as it is. That the draw count advances is the model's choice of
form for a free value: log entry 5. -/
def Obligations.BusyReads : Prop :=
  ∀ (s : State) (off : BitVec 12), s.busy = true → off.toNat % 4 = 0 →
    (off ∈ [0x008#12, 0x018#12, 0x01C#12] ∨ reservedOffset off.toNat →
      step (s.facing (readEvent off)) = .next { s with responses := .data 0#32 :: s.responses }) ∧
    (off = 0x000#12 → step (s.facing (readEvent off)) =
      .next { s with responses := .data 0x53484131#32 :: s.responses }) ∧
    (off = 0x004#12 → step (s.facing (readEvent off)) =
      .next { s with responses := .data 0x00070000#32 :: s.responses }) ∧
    (off = 0x00C#12 → step (s.facing (readEvent off)) = .next { s with responses := .data s.cmd :: s.responses }) ∧
    (off = 0x010#12 → step (s.facing (readEvent off)) =
      .next { s with responses := .data (statusWord s) :: s.responses }) ∧
    (off = 0x014#12 → step (s.facing (readEvent off)) =
      .next { s with responses := .data (irqenWord s) :: s.responses }) ∧
    (0x020 ≤ off.toNat → ¬ reservedOffset off.toNat →
      ∃ v, step (s.facing (readEvent off)) =
        .next { s with responses := .data v :: s.responses, draws := s.draws + 1 })

/-- A read changes nothing in the block, idle or busy: only the host gets a response, and perhaps a free value is drawn
(R67). -/
def Obligations.ReadsChangeNothing : Prop :=
  ∀ (s : State) (off : BitVec 12), off.toNat % 4 = 0 → ∃ t v, step (s.facing (readEvent off)) = .next t ∧
    t = { s with responses := .data v :: s.responses, draws := t.draws } ∧
    (s.busy = false → t.draws = s.draws ∧ v = readReg (regAt off.toNat) s)

/-- What each offset of the register map reads while BUSY = 0: the registers with their reserved bits 0, the halves of the
64-bit pairs, and the buffer words packed big-endian (R21, R29 to R45, R65, R66; ID, VERSION, CTRL, CMD, STATUS and IRQEN
have statements of their own). -/
def Obligations.IdleReads : Prop :=
  ∀ s : State, s.busy = false →
    let reads := fun (off : BitVec 12) (v : Word) =>
      step (s.facing (readEvent off)) = .next { s with responses := .data v :: s.responses }
    let low := fun (x : BitVec 64) => BitVec.ofNat 32 (x.toNat % 2 ^ 32)
    let high := fun (x : BitVec 64) => BitVec.ofNat 32 (x.toNat / 2 ^ 32)
    (reads 0x018#12 (s.errcode.setWidth 32) ∧ reads 0x01C#12 (s.errinfo.setWidth 32) ∧
      reads 0x020#12 (s.secLen.setWidth 32) ∧ reads 0x024#12 (s.keyLen.setWidth 32) ∧
      reads 0x028#12 (s.msgLen.setWidth 32) ∧ reads 0x02C#12 s.period) ∧
    (reads 0x030#12 (low s.time) ∧ reads 0x034#12 (high s.time) ∧ reads 0x038#12 (low s.ctr) ∧
      reads 0x03C#12 (high s.ctr) ∧ reads 0x040#12 (low s.len) ∧ reads 0x044#12 (high s.len)) ∧
    (reads 0x048#12 (s.dbc.setWidth 32) ∧ reads 0x04C#12 (s.code.setWidth 32) ∧
      reads 0x050#12 (be32 s.ascii.c0 s.ascii.c1 s.ascii.c2 s.ascii.c3) ∧
      reads 0x054#12 (be32 s.ascii.c4 s.ascii.c5 0x00#8 0x00#8)) ∧
    (reads 0x060#12 s.hash.h0 ∧ reads 0x064#12 s.hash.h1 ∧ reads 0x068#12 s.hash.h2 ∧ reads 0x06C#12 s.hash.h3 ∧
      reads 0x070#12 s.hash.h4) ∧
    ∀ off : BitVec 12, off.toNat % 4 = 0 →
      (0x080 ≤ off.toNat ∧ off.toNat < 0x1A0) ∨ (0x200 ≤ off.toNat ∧ off.toNat < 0x300) →
      reads off (be32 (s.mem.read off.toNat) (s.mem.read (off.toNat + 1)) (s.mem.read (off.toNat + 2))
        (s.mem.read (off.toNat + 3)))

/-- Writes to the read-only registers are ignored, idle or busy (R14, R21). -/
def Obligations.ReadOnlyWritesIgnored : Prop :=
  ∀ (s : State) (off : BitVec 12) (v : Word),
    off ∈ [0x000#12, 0x004#12, 0x018#12, 0x01C#12, 0x048#12, 0x04C#12, 0x050#12, 0x054#12] →
    step (s.facing (writeEvent off v)) = .next { s with responses := .ok :: s.responses }

/-- Reserved offsets, idle or busy: a read returns 0, a write is ignored and does not set OVR (R64). -/
def Obligations.ReservedOffsets : Prop :=
  ∀ (s : State) (off : BitVec 12), off.toNat % 4 = 0 → reservedOffset off.toNat →
    step (s.facing (readEvent off)) = .next { s with responses := .data 0#32 :: s.responses } ∧
    ∀ v, step (s.facing (writeEvent off v)) = .next { s with responses := .ok :: s.responses }

/-- R63: an access of another size or at a misaligned offset gets an error response and changes no state; a read so
refused returns 0. -/
def Obligations.RefusedAccess : Prop :=
  ∀ (s : State) (off : BitVec 12) (size : Nat), size ≠ 4 ∨ off.toNat % 4 ≠ 0 →
    (∃ signal, step (s.facing (.bus ⟨off, size, .read⟩)) =
      .next { s with responses := .readError 0x00000000#32 signal :: s.responses }) ∧
    (∀ v, ∃ signal, step (s.facing (.bus ⟨off, size, .write v⟩)) =
      .next { s with responses := .writeError signal :: s.responses })

/-- The window at BASE: a host transaction inside it is the access at its offset; outside it nothing reaches the block
(R60, R77, R79). That the first byte's address decides, whatever the size, is the model's choice, log entry 1, and so is
the `notReached` response, log entry 10. -/
def Obligations.WindowAtBase : Prop :=
  Config.base % 4096 = 0 ∧
  (∀ (s : State) (off : BitVec 12) (size : Nat) (op : BusOp),
    step (s.facing (.mem ⟨Config.base + off.toNat, size, op⟩)) = step (s.facing (.bus ⟨off, size, op⟩))) ∧
  (∀ (s : State) (addr size : Nat) (op : BusOp), addr < Config.base ∨ Config.base + 4096 ≤ addr →
    step (s.facing (.mem ⟨addr, size, op⟩)) = .next { s with responses := .notReached :: s.responses })

/-- A write to an RW register or buffer word while idle is read back (the length registers keep 16 bits), and no other
offset but STATUS reads differently afterwards; of STATUS only KEYVALID changes, and only by a write to KEY_LEN, which
sets it (R31 to R37, R41 to R46, R66, R72). -/
def Obligations.WriteReadsBack : Prop :=
  ∀ (s : State) (off : BitVec 12) (v : Word), s.busy = false → s.mem.wf = true → off.toNat % 4 = 0 →
    rwOffset off.toNat → off ≠ 0x00C#12 →
    ∃ t, step (s.facing (writeEvent off v)) = .next t ∧ t.mem.wf = true ∧
      t.busy = false ∧ t.done = s.done ∧ t.err = s.err ∧ t.ovr = s.ovr ∧
      t.keyvalid = (if off = 0x024#12 then true else s.keyvalid) ∧
      readReg (regAt off.toNat) t = (if off ∈ [0x020#12, 0x024#12, 0x028#12] then v &&& 0xFFFF#32 else v) ∧
      ∀ o : BitVec 12, o.toNat % 4 = 0 → o ≠ off → o ≠ 0x010#12 → readReg (regAt o.toNat) t = readReg (regAt o.toNat) s

/-! ### The pure functions -/

/-- R10: the big-endian conversions. -/
def Obligations.BigEndianConversions : Prop :=
  (∀ b0 b1 b2 b3 : Byte,
    (be32 b0 b1 b2 b3).toNat = b0.toNat * 2 ^ 24 + b1.toNat * 2 ^ 16 + b2.toNat * 2 ^ 8 + b3.toNat) ∧
  (∀ w : Word, ∃ b0 b1 b2 b3, bytesBE32 w = [b0, b1, b2, b3] ∧ be32 b0 b1 b2 b3 = w) ∧
  (∀ x : BitVec 64, ∃ b0 b1 b2 b3 b4 b5 b6 b7 : Byte, bytesBE64 x = [b0, b1, b2, b3, b4, b5, b6, b7] ∧
    x.toNat = b0.toNat * 2 ^ 56 + b1.toNat * 2 ^ 48 + b2.toNat * 2 ^ 40 + b3.toNat * 2 ^ 32 +
      b4.toNat * 2 ^ 24 + b5.toNat * 2 ^ 16 + b6.toNat * 2 ^ 8 + b7.toNat)

/-- R122: the message schedule of a 64-byte block has 80 words: the block's 16 big-endian words, then the recurrence. -/
def Obligations.MessageSchedule : Prop :=
  ∀ block : List Byte, block.length = 64 → (schedule block).length = 80 ∧
    (∀ t, t < 16 → (schedule block).getD t 0 =
      be32 (block.getD (4 * t) 0) (block.getD (4 * t + 1) 0) (block.getD (4 * t + 2) 0) (block.getD (4 * t + 3) 0)) ∧
    (∀ t, 16 ≤ t → t < 80 → (schedule block).getD t 0 =
      ((schedule block).getD (t - 3) 0 ^^^ (schedule block).getD (t - 8) 0 ^^^ (schedule block).getD (t - 14) 0 ^^^
        (schedule block).getD (t - 16) 0).rotateLeft 1)

/-- The compression function is 80 rounds of the round step over the schedule and a feed-forward addition, with the round
constants and round functions by the round's number (R120, R121, R123, R124, the formulas being FIPS 180-4's). -/
def Obligations.CompressionFunction : Prop :=
  ∀ (h : HashState) (block : List Byte), block.length = 64 →
    ∃ v : Nat → HashState, v 0 = h ∧
      (∀ t, t < 80 →
        let w := (schedule block).getD t 0
        let x := v t
        let f :=
          if t < 20 then (x.h1 &&& x.h2) ||| (~~~x.h1 &&& x.h3)
          else if 40 ≤ t ∧ t < 60 then (x.h1 &&& x.h2) ||| (x.h1 &&& x.h3) ||| (x.h2 &&& x.h3)
          else x.h1 ^^^ x.h2 ^^^ x.h3
        let k :=
          if t < 20 then 0x5A827999#32 else if t < 40 then 0x6ED9EBA1#32
          else if t < 60 then 0x8F1BBCDC#32 else 0xCA62C1D6#32
        v (t + 1) = ⟨x.h0.rotateLeft 5 + f + x.h4 + k + w, x.h0, x.h1.rotateLeft 30, x.h2, x.h3⟩) ∧
      compress h block = ⟨h.h0 + (v 80).h0, h.h1 + (v 80).h1, h.h2 + (v 80).h2, h.h3 + (v 80).h3, h.h4 + (v 80).h4⟩

/-- R125: PadFinal gives one block when n ≤ 55 and two when n ≥ 56; together they are the tail, 0x80, the fewest zero
bytes that bring the length to 56 modulo 64, and the length. -/
def Obligations.FinalPadding : Prop :=
  ∀ (tail : List Byte) (l : BitVec 64), tail.length ≤ 63 →
    (∀ b ∈ padFinal tail l, b.length = 64) ∧
    (padFinal tail l).length = (if tail.length ≤ 55 then 1 else 2) ∧
    ∃ z, z < 64 ∧ (tail.length + 1 + z) % 64 = 56 ∧
      (padFinal tail l).flatten = tail ++ [0x80#8] ++ zeros z ++ bytesBE64 l

/-- R146: the source's two known answers, SHA1("") and SHA1("abc"). -/
def Obligations.KnownAnswers : Prop :=
  sha1 [] = [0xda#8, 0x39#8, 0xa3#8, 0xee#8, 0x5e#8, 0x6b#8, 0x4b#8, 0x0d#8, 0x32#8, 0x55#8,
    0xbf#8, 0xef#8, 0x95#8, 0x60#8, 0x18#8, 0x90#8, 0xaf#8, 0xd8#8, 0x07#8, 0x09#8] ∧
  sha1 [0x61#8, 0x62#8, 0x63#8] = [0xa9#8, 0x99#8, 0x3e#8, 0x36#8, 0x47#8, 0x06#8, 0x81#8, 0x6a#8, 0xba#8, 0x3e#8,
    0x25#8, 0x71#8, 0x78#8, 0x50#8, 0xc2#8, 0x6c#8, 0x9c#8, 0xd0#8, 0xd8#8, 0x9d#8]

/-- R101: the strip removes exactly the trailing `=` bytes, whatever their count; the decoder reads what is left; a `=`
that is left is in no row of the alphabet (R103). -/
def Obligations.PaddingStrip : Prop :=
  ∀ s : List Byte, (∃ n, s = stripPad s ++ List.replicate n 0x3D#8) ∧ (stripPad s).getLast? ≠ some 0x3D#8 ∧
    base32Decode s = base32Decode (stripPad s) ∧
    (0x3D#8 ∈ stripPad s → ∃ i c, base32Decode s = .invalid i c)

/-- n characters of the alphabet after the strip decode, whatever n and the discarded bits are, to floor(5n/8) bytes, so a
secret of at most 256 bytes fits KEYBUF (R105). -/
def Obligations.DecodedLength : Prop :=
  let valid := fun c : Byte => (0x41 ≤ c.toNat ∧ c.toNat ≤ 0x5A) ∨ (0x61 ≤ c.toNat ∧ c.toNat ≤ 0x7A) ∨
    (0x32 ≤ c.toNat ∧ c.toNat ≤ 0x37)
  ∀ s : List Byte, (∀ c ∈ stripPad s, valid c) →
    ∃ k, base32Decode s = .bytes k ∧ k.length = 5 * (stripPad s).length / 8 ∧ (s.length ≤ 256 → k.length ≤ 160)

/-- The alphabet in byte values: `A`-`Z` and, folded, `a`-`z` are 0 to 25, `2`-`7` are 26 to 31, and every other byte is
invalid (R102, R103); decoding fails exactly at the first invalid byte and reports it as it is stored (R106). -/
def Obligations.FirstInvalidByte : Prop :=
  let valid := fun c : Byte => (0x41 ≤ c.toNat ∧ c.toNat ≤ 0x5A) ∨ (0x61 ≤ c.toNat ∧ c.toNat ≤ 0x7A) ∨
    (0x32 ≤ c.toNat ∧ c.toNat ≤ 0x37)
  (∀ c : Byte,
    (0x41 ≤ c.toNat → c.toNat ≤ 0x5A → alphabetValue (foldCase c) = some (c.toNat - 0x41)) ∧
    (0x61 ≤ c.toNat → c.toNat ≤ 0x7A → alphabetValue (foldCase c) = some (c.toNat - 0x61)) ∧
    (0x32 ≤ c.toNat → c.toNat ≤ 0x37 → alphabetValue (foldCase c) = some (c.toNat - 0x32 + 26)) ∧
    (alphabetValue (foldCase c) = none ↔ ¬ valid c)) ∧
  ∀ (s : List Byte) (i : Nat) (c : Byte), base32Decode s = .invalid i c ↔
    (stripPad s)[i]? = some c ∧ ¬ valid c ∧ ∀ j < i, ∃ d, (stripPad s)[j]? = some d ∧ valid d

/-- The decoded bytes are the 5-bit values of the characters, most significant bit first, cut into eights (R102, R103, R104;
the bit order is RFC 4648's). -/
def Obligations.DecodedBits : Prop :=
  let value := fun c : Byte =>
    if 0x41 ≤ c.toNat ∧ c.toNat ≤ 0x5A then c.toNat - 0x41
    else if 0x61 ≤ c.toNat ∧ c.toNat ≤ 0x7A then c.toNat - 0x61
    else c.toNat - 0x32 + 26
  ∀ s k : List Byte, base32Decode s = .bytes k →
    k.flatMap (fun b => (List.range 8).map fun j => b.getLsbD (7 - j)) =
      ((stripPad s).flatMap fun c => (List.range 5).map fun j => (value c).testBit (4 - j)).take (8 * k.length)

/-- The Base32 round trip: the RFC 4648 encoding of a key decodes to the key, with its padding or without, in upper or
lower case (40_base32.md, a property the spec derives; the encoder is RFC 4648's: log entry 9). -/
def Obligations.Base32RoundTrip : Prop :=
  ∀ k : List Byte, k.length ≤ 160 →
    base32Decode (base32Encode k) = .bytes k ∧
    base32Decode (base32EncodePadded k) = .bytes k ∧
    base32Decode ((base32Encode k).map lowerCase) = .bytes k ∧
    base32Decode ((base32EncodePadded k).map lowerCase) = .bytes k

/-! ### Control commands -/

/-- NOP and ILLEGAL write nothing but their completion status; ILLEGAL's is ILLEGAL_CMD with w[23:0] (R200, R201). -/
def Obligations.NopAndIllegal : Prop :=
  ∀ (s : State) (w : Word),
    exec .nop s = .next s.succeeded ∧
    exec (.illegal w) s = .next (s.failed 0x01#8 (w.extractLsb' 0 24))

/-! ### SHA-1 commands -/

/-- SHA_INIT loads the initial constants and zeroes LEN; nothing else but the status changes (R140). -/
def Obligations.ShaInitResult : Prop :=
  decodeCmd 0x00000001#32 = .shaInit ∧
  ∀ s : State, exec .shaInit s = .next { s.succeeded with
    hash := ⟨0x67452301#32, 0xEFCDAB89#32, 0x98BADCFE#32, 0x10325476#32, 0xC3D2E1F0#32⟩
    len := 0#64 }

/-- SHA_UPDATE compresses BLKB[0..64) into H and adds 512 to LEN modulo 2^64; BLK and all else stay (R141). -/
def Obligations.ShaUpdateResult : Prop :=
  decodeCmd 0x00000002#32 = .shaUpdate ∧
  ∀ s : State, ∃ t, exec .shaUpdate s = .next t ∧
    t = { s.succeeded with hash := compress s.hash (s.mem.readBytes 0x080 64), len := t.len } ∧
    t.len.toNat = (s.len.toNat + 512) % 2 ^ 64

/-- SHA_FINAL n: LEN grows by 8n modulo 2^64; the tail, 0x80, zeros and LEN are compressed as one block (n ≤ 55) or two; BLK
is left holding the last block; no other byte of memory and no other register changes (R142). -/
def Obligations.ShaFinalResult : Prop :=
  (∀ n : BitVec 6, decodeCmd (0x00000003#32 ||| (n.setWidth 32 <<< 8)) = .shaFinal n) ∧
  ∀ (n : BitVec 6) (s : State), s.mem.wf = true → ∃ t, exec (.shaFinal n) s = .next t ∧
    t = { s.succeeded with hash := t.hash, len := t.len, mem := t.mem } ∧
    t.len.toNat = (s.len.toNat + 8 * n.toNat) % 2 ^ 64 ∧
    (let tail := s.mem.readBytes 0x080 n.toNat
     if n.toNat ≤ 55 then
       let b := tail ++ [0x80#8] ++ zeros (55 - n.toNat) ++ bytesBE64 t.len
       t.hash = compress s.hash b ∧ t.mem.readBytes 0x080 64 = b
     else
       let b1 := tail ++ [0x80#8] ++ zeros (63 - n.toNat)
       let b2 := zeros 56 ++ bytesBE64 t.len
       t.hash = compress (compress s.hash b1) b2 ∧ t.mem.readBytes 0x080 64 = b2) ∧
    MemSameOutside s t 0x080 64

/-- The command sequence for hashing a byte string, from any state, leaves its SHA-1 digest in H0..H4 and its bit length,
modulo 2^64, in LEN (41_sha1.md, which derives it). -/
def Obligations.HashSequenceIsSha1 : Prop :=
  ∀ (data : List Byte) (s : State), s.mem.wf = true → ∃ t, hashSequence data s = .next t ∧
    digestOf t.hash = sha1 data ∧ t.len.toNat = (8 * data.length) % 2 ^ 64 ∧ t.errcode = 0x00#8

/-! ### B32_DECODE -/

/-- B32_DECODE of a valid secret: KEYBUF holds the decoded bytes and then zeros, KEY_LEN their count, KEYVALID is 1; no
other byte of memory and no other register changes (R100). The empty secret is one (R107). -/
def Obligations.B32DecodeResult : Prop :=
  ∀ (s : State) (k : List Byte), s.mem.wf = true → s.secLen.toNat ≤ 256 →
    base32Decode (s.mem.readBytes 0x200 s.secLen.toNat) = .bytes k →
    ∃ t, exec .b32Decode s = .next t ∧
      t = { s.succeeded with keyLen := t.keyLen, keyvalid := true, mem := t.mem } ∧
      t.keyLen.toNat = k.length ∧ t.mem.readBytes 0x100 160 = k ++ zeros (160 - k.length) ∧
      MemSameOutside s t 0x100 160

/-- B32_DECODE's errors (R100, R211, R212, R214, R215): a length above 256 writes nothing; an invalid byte erases the
key, and a later HMAC finds none. -/
def Obligations.B32DecodeErrors : Prop :=
  (∀ s : State, 256 < s.secLen.toNat →
    exec .b32Decode s = .next (s.failed 0x04#8 (0x01#8 ++ s.secLen))) ∧
  (∀ (s : State) (i : Nat) (c : Byte), s.mem.wf = true → s.secLen.toNat ≤ 256 →
    base32Decode (s.mem.readBytes 0x200 s.secLen.toNat) = .invalid i c →
    ∃ t, exec .b32Decode s = .next t ∧
      t = { s.failed 0x02#8 (c ++ BitVec.ofNat 16 i) with keyLen := 0#16, keyvalid := false, mem := t.mem } ∧
      t.mem.readBytes 0x100 160 = zeros 160 ∧ MemSameOutside s t 0x100 160 ∧
      exec .hmac t = .next (t.failed 0x03#8 0#24))

/-! ### HMAC -/

/-- HMAC with a valid key: H0..H4 hold the HMAC-SHA1 of MSGBUF[0..MSG_LEN) under KEYBUF[0..KEY_LEN), LEN is 672, BLK is
the last padded block of the outer hash; no other byte of memory and no other register changes (R153). -/
def Obligations.HmacResult : Prop :=
  ∀ s : State, s.mem.wf = true → s.keyvalid = true → s.keyLen.toNat ≤ 160 → s.msgLen.toNat ≤ 64 →
    let key := s.mem.readBytes 0x100 s.keyLen.toNat
    let msg := s.mem.readBytes 0x0C0 s.msgLen.toNat
    let k0 := (if key.length > 64 then sha1 key else key) ++
      zeros (64 - (if key.length > 64 then sha1 key else key).length)
    let inner := sha1 (List.zipWith (· ^^^ ·) k0 (List.replicate 64 0x36#8) ++ msg)
    ∃ t, exec .hmac s = .next t ∧
      t = { s.succeeded with hash := t.hash, len := 672#64, mem := t.mem } ∧
      digestOf t.hash = sha1 (List.zipWith (· ^^^ ·) k0 (List.replicate 64 0x5C#8) ++ inner) ∧
      t.mem.readBytes 0x080 64 = inner ++ [0x80#8] ++ zeros 35 ++ bytesBE64 672#64 ∧
      MemSameOutside s t 0x080 64

/-- HMAC's checks in their order, each before any state is written (R153, R214, R215). -/
def Obligations.HmacErrors : Prop :=
  ∀ s : State,
    (s.keyvalid = false → exec .hmac s = .next (s.failed 0x03#8 0#24)) ∧
    (s.keyvalid = true → 160 < s.keyLen.toNat → exec .hmac s = .next (s.failed 0x04#8 (0x02#8 ++ s.keyLen))) ∧
    (s.keyvalid = true → s.keyLen.toNat ≤ 160 → 64 < s.msgLen.toNat →
      exec .hmac s = .next (s.failed 0x04#8 (0x03#8 ++ s.msgLen)))

/-- HMAC's end state of H, LEN and BLK is what its outer hash leaves when run as commands: SHA_INIT, one SHA_UPDATE of the
outer pad block, then SHA_FINAL 20 of the inner digest (R153). -/
def Obligations.HmacIsOuterHashAsCommands : Prop :=
  ∀ s : State, s.mem.wf = true → s.keyvalid = true → s.keyLen.toNat ≤ 160 → s.msgLen.toNat ≤ 64 →
    ∃ t u, exec .hmac s = .next t ∧
      hashSequence (hmacOuterMessage (keyOf s) (messageOf s)) s = .next u ∧
      t.hash = u.hash ∧ t.len = u.len ∧ blockOf t = blockOf u

/-! ### Counter, truncation, codes -/

/-- CTR_TIME: CTR is floor(TIME / PERIOD); with PERIOD = 0 it raises DIV_ZERO and writes nothing (R170). -/
def Obligations.CtrTimeResult : Prop :=
  decodeCmd 0x00000040#32 = .ctrTime ∧
  ∀ s : State,
    (s.period ≠ 0#32 → ∃ t, exec .ctrTime s = .next t ∧ t = { s.succeeded with ctr := t.ctr } ∧
      t.ctr.toNat = s.time.toNat / s.period.toNat) ∧
    (s.period = 0#32 → exec .ctrTime s = .next (s.failed 0x05#8 0#24))

/-- TRUNC: DBC is the 31-bit slice of the digest in H at the offset of its last nibble, CODE is DBC mod 1000000, and
CODE_ASCII0/1 are CODE's six decimal digits and two zero bytes; nothing else but the status changes (R171, R172,
R173). -/
def Obligations.TruncResult : Prop :=
  decodeCmd 0x00000030#32 = .trunc ∧
  ∀ s : State, ∃ t, exec .trunc s = .next t ∧
    t = { s.succeeded with dbc := t.dbc, code := t.code, ascii := t.ascii } ∧
    (let d := digestOf s.hash
     let off := (d.getD 19 0).toNat % 16
     t.dbc.toNat = ((d.getD off 0).toNat * 2 ^ 24 + (d.getD (off + 1) 0).toNat * 2 ^ 16 +
       (d.getD (off + 2) 0).toNat * 2 ^ 8 + (d.getD (off + 3) 0).toNat) % 2 ^ 31) ∧
    t.code.toNat = t.dbc.toNat % 1000000 ∧
    (let c := fun k => BitVec.ofNat 8 (0x30 + t.code.toNat / 10 ^ (5 - k) % 10)
     codeAscii0 t.ascii = be32 (c 0) (c 1) (c 2) (c 3) ∧ codeAscii1 t.ascii = be32 (c 4) (c 5) 0x00#8 0x00#8)

/-- After any TRUNC, CODE_ASCII0/1 hold six ASCII digits, which are CODE in base 10, and two zero bytes (43_otp.md, the
properties the rules give). -/
def Obligations.OutputShape : Prop :=
  ∀ s : State, ∃ t, exec .trunc s = .next t ∧
    ∃ c0 c1 c2 c3 c4 c5 : Byte, codeAscii0 t.ascii = be32 c0 c1 c2 c3 ∧ codeAscii1 t.ascii = be32 c4 c5 0x00#8 0x00#8 ∧
      (∀ c ∈ [c0, c1, c2, c3, c4, c5], 0x30 ≤ c.toNat ∧ c.toNat ≤ 0x39) ∧
      t.code.toNat = (c0.toNat - 0x30) * 100000 + (c1.toNat - 0x30) * 10000 + (c2.toNat - 0x30) * 1000 +
        (c3.toNat - 0x30) * 100 + (c4.toNat - 0x30) * 10 + (c5.toNat - 0x30)

/-- HOTP with a valid key: the code of the HMAC of CTR's eight big-endian bytes; what it leaves in MSGBUF, MSG_LEN, H, LEN
and BLK; and its frame (R175). -/
def Obligations.HotpResult : Prop :=
  ∀ s : State, s.mem.wf = true → s.keyvalid = true → s.keyLen.toNat ≤ 160 →
    let digest := hmacSha1 (keyOf s) (bytesBE64 s.ctr)
    ∃ t, exec .hotp s = .next t ∧
      t = { s.succeeded with
        msgLen := 8#16, hash := t.hash, len := 672#64, mem := t.mem, dbc := truncate digest,
        code := codeOf (truncate digest), ascii := formatCode (codeOf (truncate digest)) } ∧
      digestOf t.hash = digest ∧ t.mem.readBytes 0x0C0 8 = bytesBE64 s.ctr ∧
      t.mem.readBytes 0x080 64 = hmacBlock (hmacInner (keyOf s) (bytesBE64 s.ctr)) ∧
      ∀ x, x < 0x080 ∨ 0x0C8 ≤ x → t.mem.read x = s.mem.read x

/-- A composite command is its primitives in order, the first error ending it (R174): TOTP is CTR_TIME and then HOTP,
TOTP_SECRET is B32_DECODE and then TOTP, HOTP is HMAC on the loaded counter and then TRUNC. -/
def Obligations.CompositeSequencing : Prop :=
  ∀ (s t : State),
    (exec .ctrTime s = .next t → exec .totp s = if t.errcode = 0x00#8 then exec .hotp t else .next t) ∧
    (exec .b32Decode s = .next t → exec .totpSecret s = if t.errcode = 0x00#8 then exec .totp t else .next t) ∧
    (exec .hmac { s with mem := s.mem.writeBytes 0x0C0 (bytesBE64 s.ctr), msgLen := 8#16 } = .next t →
      exec .hotp s = if t.errcode = 0x00#8 then exec .trunc t else .next t)

/-- TOTP with a valid key and PERIOD ≠ 0: the code of the window floor(TIME / PERIOD), and the frame; with PERIOD = 0 it
raises DIV_ZERO and writes nothing (R176). -/
def Obligations.TotpResult : Prop :=
  ∀ s : State,
    (s.mem.wf = true → s.period ≠ 0#32 → s.keyvalid = true → s.keyLen.toNat ≤ 160 →
      let ctr := BitVec.ofNat 64 (s.time.toNat / s.period.toNat)
      let digest := hmacSha1 (keyOf s) (bytesBE64 ctr)
      ∃ t, exec .totp s = .next t ∧
        t = { s.succeeded with
          ctr := ctr, msgLen := 8#16, hash := t.hash, len := 672#64, mem := t.mem, dbc := truncate digest,
          code := codeOf (truncate digest), ascii := formatCode (codeOf (truncate digest)) } ∧
        digestOf t.hash = digest ∧ ∀ x, x < 0x080 ∨ 0x0C8 ≤ x → t.mem.read x = s.mem.read x) ∧
    (s.period = 0#32 → exec .totp s = .next (s.failed 0x05#8 0#24))

/-- TOTP_SECRET of a valid secret with PERIOD ≠ 0: the whole pipeline, secret and time to code, and the frame (R177). -/
def Obligations.TotpSecretResult : Prop :=
  ∀ (s : State) (k : List Byte), s.mem.wf = true → s.secLen.toNat ≤ 256 → s.period ≠ 0#32 →
    base32Decode (s.mem.readBytes 0x200 s.secLen.toNat) = .bytes k →
    let ctr := BitVec.ofNat 64 (s.time.toNat / s.period.toNat)
    let digest := hmacSha1 k (bytesBE64 ctr)
    ∃ t, exec .totpSecret s = .next t ∧
      t = { s.succeeded with
        keyLen := t.keyLen, keyvalid := true, ctr := ctr, msgLen := 8#16, hash := t.hash, len := 672#64, mem := t.mem,
        dbc := truncate digest, code := codeOf (truncate digest), ascii := formatCode (codeOf (truncate digest)) } ∧
      t.keyLen.toNat = k.length ∧ t.mem.readBytes 0x100 160 = k ++ zeros (160 - k.length) ∧
      digestOf t.hash = digest ∧ ∀ x, x < 0x080 ∨ (0x0C8 ≤ x ∧ x < 0x100) ∨ 0x1A0 ≤ x → t.mem.read x = s.mem.read x

/-- Every time of the window [k*p, (k+1)*p) gives CTR = k, and so the same code (43_otp.md, the properties the rules
give): TOTP runs from states that differ in TIME inside one window agree in CTR and in every result. -/
def Obligations.WindowStability : Prop :=
  ∀ (s : State) (k : Nat) (x y : BitVec 64), s.period ≠ 0#32 →
    k * s.period.toNat ≤ x.toNat → x.toNat < (k + 1) * s.period.toNat →
    k * s.period.toNat ≤ y.toNat → y.toNat < (k + 1) * s.period.toNat →
    (∃ t, exec .ctrTime { s with time := x } = .next t ∧ t.ctr.toNat = k) ∧
    ∃ t u, exec .totp { s with time := x } = .next t ∧ exec .totp { s with time := y } = .next u ∧
      t = { u with time := x }

/-- TOTP_SECRET is a function of the secret, TIME and PERIOD: whatever else two states hold, equal ones give the same
error or the same results (43_otp.md, the properties the rules give). -/
def Obligations.TotpSecretDeterminism : Prop :=
  ∀ s t : State, s.mem.wf = true → t.mem.wf = true → s.secLen = t.secLen → secretOf s = secretOf t →
    s.time = t.time → s.period = t.period →
    ∃ s' t', exec .totpSecret s = .next s' ∧ exec .totpSecret t = .next t' ∧
      s'.errcode = t'.errcode ∧ s'.errinfo = t'.errinfo ∧
      (s'.errcode = 0x00#8 → s'.ctr = t'.ctr ∧ s'.hash = t'.hash ∧ s'.len = t'.len ∧ s'.keyLen = t'.keyLen ∧
        s'.dbc = t'.dbc ∧ s'.code = t'.code ∧ s'.ascii = t'.ascii)

/-! ### Errors and interrupts -/

/-- R211's table: the error codes, their causes, and the commands that raise them. Of BAD_LENGTH's causes, SEC_LEN is that of
B32_DECODE and TOTP_SECRET, KEY_LEN that of HMAC, HOTP and TOTP, and MSG_LEN that of HMAC alone. -/
def Obligations.ErrorCauses : Prop :=
  ∀ (i : Instr) (s t : State), i ≠ .srst → exec i s = .next t →
    t.errcode.toNat ≤ 5 ∧
    (t.err = false ↔ t.errcode = 0x00#8) ∧
    (t.errcode = 0x01#8 ↔ ∃ w, i = .illegal w) ∧
    (t.errcode = 0x02#8 → i ∈ [.b32Decode, .totpSecret] ∧ ∃ j c, base32Decode (secretOf s) = .invalid j c) ∧
    (t.errcode = 0x03#8 → i ∈ [.hmac, .hotp, .totp, .totpSecret] ∧ s.keyvalid = false) ∧
    (t.errcode = 0x04#8 → (i ∈ [.b32Decode, .totpSecret] ∧ 256 < s.secLen.toNat) ∨
      (i ∈ [.hmac, .hotp, .totp] ∧ 160 < s.keyLen.toNat) ∨ (i = .hmac ∧ 64 < s.msgLen.toNat)) ∧
    (t.errcode = 0x05#8 → i ∈ [.ctrTime, .totp, .totpSecret] ∧ s.period = 0#32)
end

