-- ==== Sys2Proof/Laws/Memory.lean ====
section
/-! SUPPORT. The laws of memory: every operation keeps the canonical form; a read after a write gives the stored byte there
and the old byte elsewhere; canonical memories that read alike are equal. -/

namespace Sys2Proof.Machine

namespace Memory

/-- A bound that an offset must exceed. -/
def Above (bound : Option Nat) (a : Nat) : Prop := ∀ k, bound = some k → k < a

@[simp] theorem above_none (a : Nat) : Above none a := by simp [Above]

@[simp] theorem above_some (k a : Nat) : Above (some k) a ↔ k < a := by simp [Above]

@[simp] theorem wfAbove_nil (bound : Option Nat) : wfAbove bound [] = true := by
  cases bound <;> rfl

theorem wfAbove_cons (bound : Option Nat) (k : Nat) (v : Byte) (rest : Memory) :
    wfAbove bound ((k, v) :: rest) = true ↔
      Above bound k ∧ v ≠ unlisted ∧ wfAbove (some k) rest = true := by
  cases bound <;> simp [wfAbove, and_assoc]

theorem wfAbove_weaken {k : Nat} {bound : Option Nat} {m : Memory} (h : wfAbove (some k) m = true)
    (hb : Above bound k) : wfAbove bound m = true := by
  cases m with
  | nil => simp
  | cons c rest =>
    obtain ⟨j, v⟩ := c
    rw [wfAbove_cons] at h ⊢
    refine ⟨fun b hbd => ?_, h.2⟩
    exact lt_trans (hb b hbd) (by simpa using h.1)

@[simp] theorem wf_nil : Memory.wf [] = true := rfl

theorem wf_of_wfAbove {k : Nat} {m : Memory} (h : wfAbove (some k) m = true) : m.wf = true :=
  wfAbove_weaken h (above_none k)

@[simp] theorem read_nil (a : Nat) : Memory.read [] a = unlisted := rfl

theorem read_cons (k : Nat) (v : Byte) (rest : Memory) (a : Nat) :
    Memory.read ((k, v) :: rest) a =
      if a < k then unlisted else if a = k then v else Memory.read rest a := rfl

/-- Below the bound of a canonical memory nothing is listed. -/
theorem read_le_bound {k : Nat} {m : Memory} (h : wfAbove (some k) m = true) {a : Nat} (ha : a ≤ k) :
    m.read a = unlisted := by
  cases m with
  | nil => rfl
  | cons c rest =>
    obtain ⟨j, v⟩ := c
    have hk : k < j := by simpa using ((wfAbove_cons _ _ _ _).1 h).1
    rw [read_cons, if_pos (by omega)]

theorem push_wfAbove {bound : Option Nat} {a : Nat} {b : Byte} {m : Memory} (ha : Above bound a)
    (h : wfAbove (some a) m = true) : wfAbove bound (push a b m) = true := by
  unfold push
  split
  · exact wfAbove_weaken h ha
  · exact (wfAbove_cons _ _ _ _).2 ⟨ha, ‹_›, h⟩

theorem read_push {a : Nat} {b : Byte} {m : Memory} (h : wfAbove (some a) m = true) (x : Nat) :
    (push a b m).read x = if x = a then b else m.read x := by
  unfold push
  split
  · next hb =>
    split
    · next hx => rw [hx, read_le_bound h le_rfl, hb]
    · rfl
  · rw [read_cons]
    split
    · next hx => rw [if_neg (by omega), read_le_bound h (by omega)]
    · rfl

theorem write_wfAbove {m : Memory} : ∀ {bound : Option Nat}, wfAbove bound m = true → ∀ {a : Nat} (b : Byte),
    Above bound a → wfAbove bound (m.write a b) = true := by
  induction m with
  | nil => exact fun _ _ _ ha => push_wfAbove ha (wfAbove_nil _)
  | cons c rest ih =>
    obtain ⟨k, v⟩ := c
    intro bound h a b ha
    obtain ⟨hk, hv, hr⟩ := (wfAbove_cons _ _ _ _).1 h
    unfold Memory.write
    split
    · next hlt => exact push_wfAbove ha ((wfAbove_cons _ _ _ _).2 ⟨(above_some _ _).2 hlt, hv, hr⟩)
    · split
      · next heq => exact push_wfAbove ha (heq ▸ hr)
      · exact (wfAbove_cons _ _ _ _).2 ⟨hk, hv, ih hr b ((above_some _ _).2 (by omega))⟩

/-- A store keeps the canonical form. -/
theorem write_wf {m : Memory} (h : m.wf = true) (a : Nat) (b : Byte) : (m.write a b).wf = true :=
  write_wfAbove h b (above_none a)

theorem read_write_above {m : Memory} : ∀ {bound : Option Nat}, wfAbove bound m = true → ∀ (a : Nat) (b : Byte)
    (x : Nat), (m.write a b).read x = if x = a then b else m.read x := by
  induction m with
  | nil => exact fun _ _ _ _ => read_push (wfAbove_nil _) _
  | cons c rest ih =>
    obtain ⟨k, v⟩ := c
    intro bound h a b x
    obtain ⟨hk, hv, hr⟩ := (wfAbove_cons _ _ _ _).1 h
    unfold Memory.write
    split
    · next hlt => exact read_push ((wfAbove_cons _ _ _ _).2 ⟨(above_some _ _).2 hlt, hv, hr⟩) x
    · split
      · next heq =>
        rw [read_push (heq ▸ hr), read_cons]
        split
        · rfl
        · next hx =>
          split
          · next hlt => rw [read_le_bound hr (by omega)]
          · rw [if_neg (by omega)]
      · next hne =>
        rw [read_cons, read_cons, ih hr]
        by_cases hx : x = a
        · simp only [hx, if_true]
          rw [if_neg (by omega), if_neg (by omega)]
        · simp only [if_neg hx]

/-- A read after a store: the stored byte there, the old byte elsewhere. -/
theorem read_write {m : Memory} (h : m.wf = true) (a : Nat) (b : Byte) (x : Nat) :
    (m.write a b).read x = if x = a then b else m.read x := read_write_above h a b x

/-- A store lists no offset but its own. -/
theorem mem_write {m : Memory} {a : Nat} {b : Byte} {c : Host.Cell} (hc : c ∈ m.write a b) :
    c ∈ m ∨ c.1 = a := by
  induction m with
  | nil =>
    simp only [Memory.write, push] at hc
    split at hc
    · simp at hc
    · right; simp only [List.mem_singleton] at hc; rw [hc]
  | cons d rest ih =>
    obtain ⟨k, v⟩ := d
    simp only [Memory.write, push] at hc
    split at hc
    · split at hc
      · exact .inl hc
      · rcases List.mem_cons.1 hc with rfl | hc
        · exact .inr rfl
        · exact .inl hc
    · split at hc
      · split at hc
        · exact .inl (List.mem_cons_of_mem _ hc)
        · rcases List.mem_cons.1 hc with rfl | hc
          · exact .inr rfl
          · exact .inl (List.mem_cons_of_mem _ hc)
      · rcases List.mem_cons.1 hc with rfl | hc
        · exact .inl (List.mem_cons_self ..)
        · exact (ih hc).imp_left (List.mem_cons_of_mem _)

/-! ### Byte strings -/

@[simp] theorem length_readBytes (m : Memory) (a n : Nat) : (m.readBytes a n).length = n := by
  induction n generalizing a with
  | zero => rfl
  | succ n ih => simp [readBytes, ih]

theorem getElem_readBytes (m : Memory) (a n i : Nat) (h : i < (m.readBytes a n).length) :
    (m.readBytes a n)[i] = m.read (a + i) := by
  induction n generalizing a i with
  | zero => simp [readBytes] at h
  | succ n ih =>
    cases i with
    | zero => simp [readBytes]
    | succ i =>
      simp only [readBytes, List.getElem_cons_succ]
      rw [ih]
      congr 1
      omega

theorem readBytes_congr {m m' : Memory} {a n : Nat} (h : ∀ x, a ≤ x → x < a + n → m'.read x = m.read x) :
    m'.readBytes a n = m.readBytes a n := by
  apply List.ext_getElem (by simp)
  intro i h1 h2
  rw [getElem_readBytes, getElem_readBytes]
  rw [length_readBytes] at h1
  exact h _ (by omega) (by omega)

theorem readBytes_add (m : Memory) (a n k : Nat) :
    m.readBytes a (n + k) = m.readBytes a n ++ m.readBytes (a + n) k := by
  induction n generalizing a with
  | zero => simp [readBytes]
  | succ n ih =>
    rw [show n + 1 + k = (n + k) + 1 by omega]
    simp only [readBytes, List.cons_append, ih]
    rw [show a + 1 + n = a + (n + 1) by omega]

/-- Storing a byte string keeps the canonical form. -/
theorem writeBytes_wf {m : Memory} (h : m.wf = true) (a : Nat) (bs : List Byte) : (m.writeBytes a bs).wf = true := by
  induction bs generalizing m a with
  | nil => exact h
  | cons b bs ih => exact ih (write_wf h a b) (a + 1)

/-- A read after storing a byte string. -/
theorem read_writeBytes {m : Memory} (h : m.wf = true) (a : Nat) (bs : List Byte) (x : Nat) :
    (m.writeBytes a bs).read x = if a ≤ x ∧ x < a + bs.length then bs.getD (x - a) 0 else m.read x := by
  induction bs generalizing m a with
  | nil => simp [writeBytes]
  | cons b bs ih =>
    simp only [writeBytes, ih (write_wf h a b), read_write h, List.length_cons]
    by_cases hx : x = a
    · subst hx
      simp
    · by_cases hr : a + 1 ≤ x ∧ x < a + 1 + bs.length
      · rw [if_pos hr, if_pos (by omega), show x - a = (x - (a + 1)) + 1 by omega]
        rfl
      · rw [if_neg hr, if_neg hx, if_neg (by omega)]

theorem read_writeBytes_outside {m : Memory} (h : m.wf = true) {a x : Nat} {bs : List Byte}
    (hx : x < a ∨ a + bs.length ≤ x) : (m.writeBytes a bs).read x = m.read x := by
  rw [read_writeBytes h, if_neg (by omega)]

/-- Reading back a stored byte string. -/
theorem readBytes_writeBytes {m : Memory} (h : m.wf = true) (a : Nat) (bs : List Byte) :
    (m.writeBytes a bs).readBytes a bs.length = bs := by
  apply List.ext_getElem (by simp)
  intro i h1 h2
  rw [getElem_readBytes, read_writeBytes h, if_pos (by omega), show a + i - a = i by omega]
  simp [h2]

/-- Reading back the first part of a stored byte string. -/
theorem readBytes_writeBytes_prefix {m : Memory} (h : m.wf = true) (a n : Nat) (bs : List Byte) (hn : n ≤ bs.length) :
    (m.writeBytes a bs).readBytes a n = bs.take n := by
  have h1 := readBytes_writeBytes h a bs
  obtain ⟨k, hk⟩ := Nat.exists_eq_add_of_le hn
  rw [hk, readBytes_add] at h1
  conv_rhs => rw [← h1]
  simp

/-- A stored byte string leaves the bytes of a disjoint range. -/
theorem readBytes_writeBytes_disjoint {m : Memory} (h : m.wf = true) {a c n : Nat} {bs : List Byte}
    (hd : c + n ≤ a ∨ a + bs.length ≤ c) : (m.writeBytes a bs).readBytes c n = m.readBytes c n :=
  readBytes_congr fun x h1 h2 => read_writeBytes_outside h (by omega)

theorem mem_writeBytes {m : Memory} {a : Nat} {bs : List Byte} {c : Host.Cell} (hc : c ∈ m.writeBytes a bs) :
    c ∈ m ∨ (a ≤ c.1 ∧ c.1 < a + bs.length) := by
  induction bs generalizing m a with
  | nil => exact .inl hc
  | cons b bs ih =>
    simp only [List.length_cons]
    rcases ih hc with h | h
    · rcases mem_write h with h | h
      · exact .inl h
      · right; omega
    · right; omega

/-! ### Words -/

@[simp] theorem length_bytesBE32 (w : Word) : (bytesBE32 w).length = 4 := rfl

@[simp] theorem length_bytesBE64 (x : BitVec 64) : (bytesBE64 x).length = 8 := rfl

theorem be32_bytes (w : Word) :
    be32 (w.extractLsb' 24 8) (w.extractLsb' 16 8) (w.extractLsb' 8 8) (w.extractLsb' 0 8) = w := by
  unfold be32
  apply BitVec.eq_of_getLsbD_eq
  intro i hi
  simp only [BitVec.getLsbD_append, BitVec.getLsbD_extractLsb']
  split
  · simp [*]
  · split
    · rw [show 8 + (i - 8) = i by omega]; simp [*]
    · split
      · rw [show 16 + (i - 8 - 8) = i by omega]; simp [*]
      · rw [show 24 + (i - 8 - 8 - 8) = i by omega]; simp; omega

theorem writeWord_wf {m : Memory} (h : m.wf = true) (a : Nat) (v : Word) : (m.writeWord a v).wf = true :=
  writeBytes_wf h a _

/-- Reading back a stored word. -/
theorem readWord_writeWord {m : Memory} (h : m.wf = true) (a : Nat) (v : Word) :
    (m.writeWord a v).readWord a = v := by
  unfold readWord writeWord
  simp only [read_writeBytes h, length_bytesBE32]
  have e1 : a + 1 - a = 1 := by omega
  have e2 : a + 2 - a = 2 := by omega
  have e3 : a + 3 - a = 3 := by omega
  simp [bytesBE32, e1, e2, e3, be32_bytes]

theorem readWord_writeWord_ne {m : Memory} (h : m.wf = true) {a c : Nat} (v : Word) (hd : c + 4 ≤ a ∨ a + 4 ≤ c) :
    (m.writeWord a v).readWord c = m.readWord c := by
  have hx : ∀ x, c ≤ x → x < c + 4 → (m.writeWord a v).read x = m.read x := fun x _ _ =>
    read_writeBytes_outside h (by rw [length_bytesBE32]; omega)
  simp only [readWord]
  rw [hx c (by omega) (by omega), hx (c + 1) (by omega) (by omega), hx (c + 2) (by omega) (by omega),
    hx (c + 3) (by omega) (by omega)]

end Memory

end Sys2Proof.Machine
end

