-- ==== Sys2Proof/Laws/Sha1.lean ====
section
/-! SUPPORT. Lengths of the byte strings that the SHA-1 and HMAC functions make, and the shape of the padded tail. -/

namespace Sys2Proof.Machine

@[simp] theorem length_zeros (n : Nat) : (zeros n).length = n := List.length_replicate ..

@[simp] theorem length_digestOf (h : HashState) : (digestOf h).length = 20 := rfl

@[simp] theorem length_sha1 (data : List Byte) : (sha1 data).length = 20 := rfl

@[simp] theorem length_hmacInner (key msg : List Byte) : (hmacInner key msg).length = 20 := rfl

@[simp] theorem length_hmacSha1 (key msg : List Byte) : (hmacSha1 key msg).length = 20 := rfl

@[simp] theorem length_ipad : ipad.length = 64 := rfl

@[simp] theorem length_opad : opad.length = 64 := rfl

@[simp] theorem length_xorBytes (s t : List Byte) : (xorBytes s t).length = min s.length t.length := by
  simp [xorBytes]

/-- The normalised key is one block (R150). -/
@[simp] theorem length_normKey (key : List Byte) : (normKey key).length = 64 := by
  unfold normKey
  have hb : Config.blockBytes = 64 := rfl
  by_cases h : key.length > Config.blockBytes
  · simp only [if_pos h, List.length_append, length_zeros, length_sha1]
    omega
  · simp only [if_neg h, List.length_append, length_zeros]
    omega

@[simp] theorem length_hmacOuterMessage (key msg : List Byte) : (hmacOuterMessage key msg).length = 84 := by
  simp [hmacOuterMessage]

@[simp] theorem length_hmacBlock {inner : List Byte} (h : inner.length = 20) : (hmacBlock inner).length = 64 := by
  simp [hmacBlock, h]

/-- The padded tail is one block or two (R125). -/
theorem length_padBytes {tail : List Byte} (h : tail.length ≤ 63) (l : BitVec 64) :
    (padBytes tail l).length = if tail.length ≤ 55 then 64 else 128 := by
  simp only [padBytes, List.length_append, List.length_singleton, length_zeros, Memory.length_bytesBE64, padCount]
  split <;> omega

/-- `PadFinal` in its two cases (R125). -/
theorem padFinal_eq {tail : List Byte} (h : tail.length ≤ 63) (l : BitVec 64) :
    padFinal tail l =
      if tail.length ≤ 55 then [padBytes tail l] else [(padBytes tail l).take 64, (padBytes tail l).drop 64] := by
  unfold padFinal
  by_cases h55 : tail.length ≤ 55 <;> simp [length_padBytes h, h55]

/-- Every block of `PadFinal` has 64 bytes (R125). -/
theorem length_of_mem_padFinal {tail : List Byte} (h : tail.length ≤ 63) (l : BitVec 64) {b : List Byte}
    (hb : b ∈ padFinal tail l) : b.length = 64 := by
  have hl := length_padBytes h l
  rw [padFinal_eq h] at hb
  split at hb
  · next h55 => rw [List.mem_singleton.1 hb, hl, if_pos h55]
  · next h55 =>
    rw [if_neg h55] at hl
    rcases List.mem_pair.1 hb with rfl | rfl <;> simp [hl]

/-- The block that SHA_FINAL leaves in BLK has 64 bytes (R142). -/
@[simp] theorem length_lastPadded {tail : List Byte} (h : tail.length ≤ 63) (l : BitVec 64) :
    (lastPadded tail l).length = 64 := by
  have hm : lastPadded tail l ∈ padFinal tail l := by
    unfold lastPadded
    rw [padFinal_eq h]
    split <;> simp
  exact length_of_mem_padFinal h l hm

theorem tailCount_le (n : BitVec 6) : tailCount n ≤ 63 := Nat.le_of_lt_succ n.isLt

@[simp] theorem length_tailOf (s : State) (n : BitVec 6) : (tailOf s n).length = tailCount n :=
  Memory.length_readBytes ..

@[simp] theorem length_blockOf (s : State) : (blockOf s).length = 64 := Memory.length_readBytes ..

/-- The big-endian words of a block (R122). -/
theorem length_wordsOf (bs : List Byte) : (wordsOf bs).length = bs.length / 4 := by
  fun_induction wordsOf bs with
  | case1 b0 b1 b2 b3 rest ih => simp only [List.length_cons, ih]; omega
  | case2 bs h =>
    match bs, h with
    | [], _ => rfl
    | [_], _ => simp
    | [_, _], _ => simp
    | [_, _, _], _ => simp
    | b0 :: b1 :: b2 :: b3 :: rest, h => exact absurd rfl (h b0 b1 b2 b3 rest)

theorem getD_wordsOf (bs : List Byte) (t : Nat) (h : 4 * t + 3 < bs.length) :
    (wordsOf bs).getD t 0 =
      be32 (bs.getD (4 * t) 0) (bs.getD (4 * t + 1) 0) (bs.getD (4 * t + 2) 0) (bs.getD (4 * t + 3) 0) := by
  fun_induction wordsOf bs generalizing t with
  | case1 b0 b1 b2 b3 rest ih =>
    cases t with
    | zero => rfl
    | succ t =>
      have := ih t (by simp only [List.length_cons] at h; omega)
      simpa [Nat.mul_add] using this
  | case2 bs hb =>
    match bs, hb with
    | [], _ => simp at h
    | [_], _ => simp at h
    | [_, _], _ => simp at h
    | [_, _, _], _ => simp at h
    | b0 :: b1 :: b2 :: b3 :: rest, hb => exact absurd rfl (hb b0 b1 b2 b3 rest)

theorem length_extendSchedule (n : Nat) (ws : List Word) : (extendSchedule n ws).length = ws.length + n := by
  induction n generalizing ws with
  | zero => rfl
  | succ n ih => rw [extendSchedule, ih]; simp; omega

/-- A block's schedule has 80 words (R122). -/
theorem length_schedule {block : List Byte} (h : block.length = 64) : (schedule block).length = 80 := by
  simp [schedule, length_extendSchedule, length_wordsOf, h]

/-- The schedule keeps the words it extends: they are its older part. -/
theorem extendSchedule_suffix (n : Nat) (ws : List Word) : ∃ pre, extendSchedule n ws = pre ++ ws ∧ pre.length = n := by
  induction n generalizing ws with
  | zero => exact ⟨[], rfl, rfl⟩
  | succ n ih =>
    obtain ⟨pre, he, hl⟩ := ih
      (rotl 1 (ws.getD 2 0 ^^^ ws.getD 7 0 ^^^ ws.getD 13 0 ^^^ ws.getD 15 0) :: ws)
    exact ⟨pre ++ [_], by rw [extendSchedule, he, List.append_assoc]; rfl, by simp [hl]⟩

end Sys2Proof.Machine
end

