-- ==== Sys2Proof/Laws/State.lean ====
section
/-! SUPPORT. One lemma per field per named update of State: what the update leaves in the field. -/

namespace Sys2Proof.Machine

/-! ### accept -/

@[simp] theorem accept_cmd (s : State) (w : Word) : (accept s w).cmd = w := rfl
@[simp] theorem accept_busy (s : State) (w : Word) : (accept s w).busy = true := rfl
@[simp] theorem accept_done (s : State) (w : Word) : (accept s w).done = false := rfl
@[simp] theorem accept_err (s : State) (w : Word) : (accept s w).err = false := rfl
@[simp] theorem accept_ovr (s : State) (w : Word) : (accept s w).ovr = s.ovr := rfl
@[simp] theorem accept_keyvalid (s : State) (w : Word) : (accept s w).keyvalid = s.keyvalid := rfl
@[simp] theorem accept_irqen (s : State) (w : Word) : (accept s w).irqen = s.irqen := rfl
@[simp] theorem accept_errcode (s : State) (w : Word) : (accept s w).errcode = 0x00#8 := rfl
@[simp] theorem accept_errinfo (s : State) (w : Word) : (accept s w).errinfo = 0#24 := rfl
@[simp] theorem accept_secLen (s : State) (w : Word) : (accept s w).secLen = s.secLen := rfl
@[simp] theorem accept_keyLen (s : State) (w : Word) : (accept s w).keyLen = s.keyLen := rfl
@[simp] theorem accept_msgLen (s : State) (w : Word) : (accept s w).msgLen = s.msgLen := rfl
@[simp] theorem accept_time (s : State) (w : Word) : (accept s w).time = s.time := rfl
@[simp] theorem accept_period (s : State) (w : Word) : (accept s w).period = s.period := rfl
@[simp] theorem accept_len (s : State) (w : Word) : (accept s w).len = s.len := rfl
@[simp] theorem accept_ctr (s : State) (w : Word) : (accept s w).ctr = s.ctr := rfl
@[simp] theorem accept_dbc (s : State) (w : Word) : (accept s w).dbc = s.dbc := rfl
@[simp] theorem accept_code (s : State) (w : Word) : (accept s w).code = s.code := rfl
@[simp] theorem accept_ascii (s : State) (w : Word) : (accept s w).ascii = s.ascii := rfl
@[simp] theorem accept_hash (s : State) (w : Word) : (accept s w).hash = s.hash := rfl
@[simp] theorem accept_mem (s : State) (w : Word) : (accept s w).mem = s.mem := rfl
@[simp] theorem accept_hidden (s : State) (w : Word) : (accept s w).hidden = some (Config.hiddenAtAccept s.draws) := rfl
@[simp] theorem accept_events (s : State) (w : Word) : (accept s w).events = s.events := rfl
@[simp] theorem accept_responses (s : State) (w : Word) : (accept s w).responses = s.responses := rfl
@[simp] theorem accept_draws (s : State) (w : Word) : (accept s w).draws = s.draws + 1 := rfl

/-! ### complete -/

@[simp] theorem complete_cmd (r : Ran) : (complete r).cmd = r.state.cmd := rfl
@[simp] theorem complete_busy (r : Ran) : (complete r).busy = false := rfl
@[simp] theorem complete_done (r : Ran) : (complete r).done = true := rfl
@[simp] theorem complete_err (r : Ran) : (complete r).err = (r.code != 0x00#8) := rfl
@[simp] theorem complete_ovr (r : Ran) : (complete r).ovr = r.state.ovr := rfl
@[simp] theorem complete_keyvalid (r : Ran) : (complete r).keyvalid = r.state.keyvalid := rfl
@[simp] theorem complete_irqen (r : Ran) : (complete r).irqen = r.state.irqen := rfl
@[simp] theorem complete_errcode (r : Ran) : (complete r).errcode = r.code := rfl
@[simp] theorem complete_errinfo (r : Ran) : (complete r).errinfo = r.info := rfl
@[simp] theorem complete_secLen (r : Ran) : (complete r).secLen = r.state.secLen := rfl
@[simp] theorem complete_keyLen (r : Ran) : (complete r).keyLen = r.state.keyLen := rfl
@[simp] theorem complete_msgLen (r : Ran) : (complete r).msgLen = r.state.msgLen := rfl
@[simp] theorem complete_time (r : Ran) : (complete r).time = r.state.time := rfl
@[simp] theorem complete_period (r : Ran) : (complete r).period = r.state.period := rfl
@[simp] theorem complete_len (r : Ran) : (complete r).len = r.state.len := rfl
@[simp] theorem complete_ctr (r : Ran) : (complete r).ctr = r.state.ctr := rfl
@[simp] theorem complete_dbc (r : Ran) : (complete r).dbc = r.state.dbc := rfl
@[simp] theorem complete_code (r : Ran) : (complete r).code = r.state.code := rfl
@[simp] theorem complete_ascii (r : Ran) : (complete r).ascii = r.state.ascii := rfl
@[simp] theorem complete_hash (r : Ran) : (complete r).hash = r.state.hash := rfl
@[simp] theorem complete_mem (r : Ran) : (complete r).mem = r.state.mem := rfl
@[simp] theorem complete_hidden (r : Ran) : (complete r).hidden = none := rfl
@[simp] theorem complete_events (r : Ran) : (complete r).events = r.state.events := rfl
@[simp] theorem complete_responses (r : Ran) : (complete r).responses = r.state.responses := rfl
@[simp] theorem complete_draws (r : Ran) : (complete r).draws = r.state.draws := rfl

/-! ### resetBlock -/

@[simp] theorem resetBlock_cmd (s : State) : (resetBlock s).cmd = State.reset.cmd := rfl
@[simp] theorem resetBlock_busy (s : State) : (resetBlock s).busy = State.reset.busy := rfl
@[simp] theorem resetBlock_done (s : State) : (resetBlock s).done = State.reset.done := rfl
@[simp] theorem resetBlock_err (s : State) : (resetBlock s).err = State.reset.err := rfl
@[simp] theorem resetBlock_ovr (s : State) : (resetBlock s).ovr = State.reset.ovr := rfl
@[simp] theorem resetBlock_keyvalid (s : State) : (resetBlock s).keyvalid = State.reset.keyvalid := rfl
@[simp] theorem resetBlock_irqen (s : State) : (resetBlock s).irqen = State.reset.irqen := rfl
@[simp] theorem resetBlock_errcode (s : State) : (resetBlock s).errcode = State.reset.errcode := rfl
@[simp] theorem resetBlock_errinfo (s : State) : (resetBlock s).errinfo = State.reset.errinfo := rfl
@[simp] theorem resetBlock_secLen (s : State) : (resetBlock s).secLen = State.reset.secLen := rfl
@[simp] theorem resetBlock_keyLen (s : State) : (resetBlock s).keyLen = State.reset.keyLen := rfl
@[simp] theorem resetBlock_msgLen (s : State) : (resetBlock s).msgLen = State.reset.msgLen := rfl
@[simp] theorem resetBlock_time (s : State) : (resetBlock s).time = State.reset.time := rfl
@[simp] theorem resetBlock_period (s : State) : (resetBlock s).period = State.reset.period := rfl
@[simp] theorem resetBlock_len (s : State) : (resetBlock s).len = State.reset.len := rfl
@[simp] theorem resetBlock_ctr (s : State) : (resetBlock s).ctr = State.reset.ctr := rfl
@[simp] theorem resetBlock_dbc (s : State) : (resetBlock s).dbc = State.reset.dbc := rfl
@[simp] theorem resetBlock_code (s : State) : (resetBlock s).code = State.reset.code := rfl
@[simp] theorem resetBlock_ascii (s : State) : (resetBlock s).ascii = State.reset.ascii := rfl
@[simp] theorem resetBlock_hash (s : State) : (resetBlock s).hash = State.reset.hash := rfl
@[simp] theorem resetBlock_mem (s : State) : (resetBlock s).mem = State.reset.mem := rfl
@[simp] theorem resetBlock_hidden (s : State) : (resetBlock s).hidden = State.reset.hidden := rfl
@[simp] theorem resetBlock_events (s : State) : (resetBlock s).events = s.events := rfl
@[simp] theorem resetBlock_responses (s : State) : (resetBlock s).responses = s.responses := rfl
@[simp] theorem resetBlock_draws (s : State) : (resetBlock s).draws = s.draws := rfl

/-! ### respond -/

@[simp] theorem respond_cmd (s : State) (r : Response) : (respond s r).cmd = s.cmd := rfl
@[simp] theorem respond_busy (s : State) (r : Response) : (respond s r).busy = s.busy := rfl
@[simp] theorem respond_done (s : State) (r : Response) : (respond s r).done = s.done := rfl
@[simp] theorem respond_err (s : State) (r : Response) : (respond s r).err = s.err := rfl
@[simp] theorem respond_ovr (s : State) (r : Response) : (respond s r).ovr = s.ovr := rfl
@[simp] theorem respond_keyvalid (s : State) (r : Response) : (respond s r).keyvalid = s.keyvalid := rfl
@[simp] theorem respond_irqen (s : State) (r : Response) : (respond s r).irqen = s.irqen := rfl
@[simp] theorem respond_errcode (s : State) (r : Response) : (respond s r).errcode = s.errcode := rfl
@[simp] theorem respond_errinfo (s : State) (r : Response) : (respond s r).errinfo = s.errinfo := rfl
@[simp] theorem respond_secLen (s : State) (r : Response) : (respond s r).secLen = s.secLen := rfl
@[simp] theorem respond_keyLen (s : State) (r : Response) : (respond s r).keyLen = s.keyLen := rfl
@[simp] theorem respond_msgLen (s : State) (r : Response) : (respond s r).msgLen = s.msgLen := rfl
@[simp] theorem respond_time (s : State) (r : Response) : (respond s r).time = s.time := rfl
@[simp] theorem respond_period (s : State) (r : Response) : (respond s r).period = s.period := rfl
@[simp] theorem respond_len (s : State) (r : Response) : (respond s r).len = s.len := rfl
@[simp] theorem respond_ctr (s : State) (r : Response) : (respond s r).ctr = s.ctr := rfl
@[simp] theorem respond_dbc (s : State) (r : Response) : (respond s r).dbc = s.dbc := rfl
@[simp] theorem respond_code (s : State) (r : Response) : (respond s r).code = s.code := rfl
@[simp] theorem respond_ascii (s : State) (r : Response) : (respond s r).ascii = s.ascii := rfl
@[simp] theorem respond_hash (s : State) (r : Response) : (respond s r).hash = s.hash := rfl
@[simp] theorem respond_mem (s : State) (r : Response) : (respond s r).mem = s.mem := rfl
@[simp] theorem respond_hidden (s : State) (r : Response) : (respond s r).hidden = s.hidden := rfl
@[simp] theorem respond_events (s : State) (r : Response) : (respond s r).events = s.events := rfl
@[simp] theorem respond_responses (s : State) (r : Response) : (respond s r).responses = r :: s.responses := rfl
@[simp] theorem respond_draws (s : State) (r : Response) : (respond s r).draws = s.draws := rfl

/-! ### clearStatus -/

@[simp] theorem clearStatus_cmd (s : State) (v : Word) : (clearStatus s v).cmd = s.cmd := rfl
@[simp] theorem clearStatus_busy (s : State) (v : Word) : (clearStatus s v).busy = s.busy := rfl
@[simp] theorem clearStatus_done (s : State) (v : Word) : (clearStatus s v).done = (s.done && !v.getLsbD 1) := rfl
@[simp] theorem clearStatus_err (s : State) (v : Word) : (clearStatus s v).err = (s.err && !v.getLsbD 2) := rfl
@[simp] theorem clearStatus_ovr (s : State) (v : Word) : (clearStatus s v).ovr = (s.ovr && !v.getLsbD 3) := rfl
@[simp] theorem clearStatus_keyvalid (s : State) (v : Word) : (clearStatus s v).keyvalid = s.keyvalid := rfl
@[simp] theorem clearStatus_irqen (s : State) (v : Word) : (clearStatus s v).irqen = s.irqen := rfl
@[simp] theorem clearStatus_errcode (s : State) (v : Word) : (clearStatus s v).errcode = s.errcode := rfl
@[simp] theorem clearStatus_errinfo (s : State) (v : Word) : (clearStatus s v).errinfo = s.errinfo := rfl
@[simp] theorem clearStatus_secLen (s : State) (v : Word) : (clearStatus s v).secLen = s.secLen := rfl
@[simp] theorem clearStatus_keyLen (s : State) (v : Word) : (clearStatus s v).keyLen = s.keyLen := rfl
@[simp] theorem clearStatus_msgLen (s : State) (v : Word) : (clearStatus s v).msgLen = s.msgLen := rfl
@[simp] theorem clearStatus_time (s : State) (v : Word) : (clearStatus s v).time = s.time := rfl
@[simp] theorem clearStatus_period (s : State) (v : Word) : (clearStatus s v).period = s.period := rfl
@[simp] theorem clearStatus_len (s : State) (v : Word) : (clearStatus s v).len = s.len := rfl
@[simp] theorem clearStatus_ctr (s : State) (v : Word) : (clearStatus s v).ctr = s.ctr := rfl
@[simp] theorem clearStatus_dbc (s : State) (v : Word) : (clearStatus s v).dbc = s.dbc := rfl
@[simp] theorem clearStatus_code (s : State) (v : Word) : (clearStatus s v).code = s.code := rfl
@[simp] theorem clearStatus_ascii (s : State) (v : Word) : (clearStatus s v).ascii = s.ascii := rfl
@[simp] theorem clearStatus_hash (s : State) (v : Word) : (clearStatus s v).hash = s.hash := rfl
@[simp] theorem clearStatus_mem (s : State) (v : Word) : (clearStatus s v).mem = s.mem := rfl
@[simp] theorem clearStatus_hidden (s : State) (v : Word) : (clearStatus s v).hidden = s.hidden := rfl
@[simp] theorem clearStatus_events (s : State) (v : Word) : (clearStatus s v).events = s.events := rfl
@[simp] theorem clearStatus_responses (s : State) (v : Word) : (clearStatus s v).responses = s.responses := rfl
@[simp] theorem clearStatus_draws (s : State) (v : Word) : (clearStatus s v).draws = s.draws := rfl

/-! ### overrun -/

@[simp] theorem overrun_cmd (s : State) : (overrun s).cmd = s.cmd := rfl
@[simp] theorem overrun_busy (s : State) : (overrun s).busy = s.busy := rfl
@[simp] theorem overrun_done (s : State) : (overrun s).done = s.done := rfl
@[simp] theorem overrun_err (s : State) : (overrun s).err = s.err := rfl
@[simp] theorem overrun_ovr (s : State) : (overrun s).ovr = true := rfl
@[simp] theorem overrun_keyvalid (s : State) : (overrun s).keyvalid = s.keyvalid := rfl
@[simp] theorem overrun_irqen (s : State) : (overrun s).irqen = s.irqen := rfl
@[simp] theorem overrun_errcode (s : State) : (overrun s).errcode = s.errcode := rfl
@[simp] theorem overrun_errinfo (s : State) : (overrun s).errinfo = s.errinfo := rfl
@[simp] theorem overrun_secLen (s : State) : (overrun s).secLen = s.secLen := rfl
@[simp] theorem overrun_keyLen (s : State) : (overrun s).keyLen = s.keyLen := rfl
@[simp] theorem overrun_msgLen (s : State) : (overrun s).msgLen = s.msgLen := rfl
@[simp] theorem overrun_time (s : State) : (overrun s).time = s.time := rfl
@[simp] theorem overrun_period (s : State) : (overrun s).period = s.period := rfl
@[simp] theorem overrun_len (s : State) : (overrun s).len = s.len := rfl
@[simp] theorem overrun_ctr (s : State) : (overrun s).ctr = s.ctr := rfl
@[simp] theorem overrun_dbc (s : State) : (overrun s).dbc = s.dbc := rfl
@[simp] theorem overrun_code (s : State) : (overrun s).code = s.code := rfl
@[simp] theorem overrun_ascii (s : State) : (overrun s).ascii = s.ascii := rfl
@[simp] theorem overrun_hash (s : State) : (overrun s).hash = s.hash := rfl
@[simp] theorem overrun_mem (s : State) : (overrun s).mem = s.mem := rfl
@[simp] theorem overrun_hidden (s : State) : (overrun s).hidden = s.hidden := rfl
@[simp] theorem overrun_events (s : State) : (overrun s).events = s.events := rfl
@[simp] theorem overrun_responses (s : State) : (overrun s).responses = s.responses := rfl
@[simp] theorem overrun_draws (s : State) : (overrun s).draws = s.draws := rfl

/-! ### setIrqen -/

@[simp] theorem setIrqen_cmd (s : State) (v : Word) : (setIrqen s v).cmd = s.cmd := rfl
@[simp] theorem setIrqen_busy (s : State) (v : Word) : (setIrqen s v).busy = s.busy := rfl
@[simp] theorem setIrqen_done (s : State) (v : Word) : (setIrqen s v).done = s.done := rfl
@[simp] theorem setIrqen_err (s : State) (v : Word) : (setIrqen s v).err = s.err := rfl
@[simp] theorem setIrqen_ovr (s : State) (v : Word) : (setIrqen s v).ovr = s.ovr := rfl
@[simp] theorem setIrqen_keyvalid (s : State) (v : Word) : (setIrqen s v).keyvalid = s.keyvalid := rfl
@[simp] theorem setIrqen_irqen (s : State) (v : Word) : (setIrqen s v).irqen = v.extractLsb' 1 3 := rfl
@[simp] theorem setIrqen_errcode (s : State) (v : Word) : (setIrqen s v).errcode = s.errcode := rfl
@[simp] theorem setIrqen_errinfo (s : State) (v : Word) : (setIrqen s v).errinfo = s.errinfo := rfl
@[simp] theorem setIrqen_secLen (s : State) (v : Word) : (setIrqen s v).secLen = s.secLen := rfl
@[simp] theorem setIrqen_keyLen (s : State) (v : Word) : (setIrqen s v).keyLen = s.keyLen := rfl
@[simp] theorem setIrqen_msgLen (s : State) (v : Word) : (setIrqen s v).msgLen = s.msgLen := rfl
@[simp] theorem setIrqen_time (s : State) (v : Word) : (setIrqen s v).time = s.time := rfl
@[simp] theorem setIrqen_period (s : State) (v : Word) : (setIrqen s v).period = s.period := rfl
@[simp] theorem setIrqen_len (s : State) (v : Word) : (setIrqen s v).len = s.len := rfl
@[simp] theorem setIrqen_ctr (s : State) (v : Word) : (setIrqen s v).ctr = s.ctr := rfl
@[simp] theorem setIrqen_dbc (s : State) (v : Word) : (setIrqen s v).dbc = s.dbc := rfl
@[simp] theorem setIrqen_code (s : State) (v : Word) : (setIrqen s v).code = s.code := rfl
@[simp] theorem setIrqen_ascii (s : State) (v : Word) : (setIrqen s v).ascii = s.ascii := rfl
@[simp] theorem setIrqen_hash (s : State) (v : Word) : (setIrqen s v).hash = s.hash := rfl
@[simp] theorem setIrqen_mem (s : State) (v : Word) : (setIrqen s v).mem = s.mem := rfl
@[simp] theorem setIrqen_hidden (s : State) (v : Word) : (setIrqen s v).hidden = s.hidden := rfl
@[simp] theorem setIrqen_events (s : State) (v : Word) : (setIrqen s v).events = s.events := rfl
@[simp] theorem setIrqen_responses (s : State) (v : Word) : (setIrqen s v).responses = s.responses := rfl
@[simp] theorem setIrqen_draws (s : State) (v : Word) : (setIrqen s v).draws = s.draws := rfl

/-! ### setBlock -/

@[simp] theorem setBlock_cmd (s : State) (bs : List Byte) : (setBlock s bs).cmd = s.cmd := rfl
@[simp] theorem setBlock_busy (s : State) (bs : List Byte) : (setBlock s bs).busy = s.busy := rfl
@[simp] theorem setBlock_done (s : State) (bs : List Byte) : (setBlock s bs).done = s.done := rfl
@[simp] theorem setBlock_err (s : State) (bs : List Byte) : (setBlock s bs).err = s.err := rfl
@[simp] theorem setBlock_ovr (s : State) (bs : List Byte) : (setBlock s bs).ovr = s.ovr := rfl
@[simp] theorem setBlock_keyvalid (s : State) (bs : List Byte) : (setBlock s bs).keyvalid = s.keyvalid := rfl
@[simp] theorem setBlock_irqen (s : State) (bs : List Byte) : (setBlock s bs).irqen = s.irqen := rfl
@[simp] theorem setBlock_errcode (s : State) (bs : List Byte) : (setBlock s bs).errcode = s.errcode := rfl
@[simp] theorem setBlock_errinfo (s : State) (bs : List Byte) : (setBlock s bs).errinfo = s.errinfo := rfl
@[simp] theorem setBlock_secLen (s : State) (bs : List Byte) : (setBlock s bs).secLen = s.secLen := rfl
@[simp] theorem setBlock_keyLen (s : State) (bs : List Byte) : (setBlock s bs).keyLen = s.keyLen := rfl
@[simp] theorem setBlock_msgLen (s : State) (bs : List Byte) : (setBlock s bs).msgLen = s.msgLen := rfl
@[simp] theorem setBlock_time (s : State) (bs : List Byte) : (setBlock s bs).time = s.time := rfl
@[simp] theorem setBlock_period (s : State) (bs : List Byte) : (setBlock s bs).period = s.period := rfl
@[simp] theorem setBlock_len (s : State) (bs : List Byte) : (setBlock s bs).len = s.len := rfl
@[simp] theorem setBlock_ctr (s : State) (bs : List Byte) : (setBlock s bs).ctr = s.ctr := rfl
@[simp] theorem setBlock_dbc (s : State) (bs : List Byte) : (setBlock s bs).dbc = s.dbc := rfl
@[simp] theorem setBlock_code (s : State) (bs : List Byte) : (setBlock s bs).code = s.code := rfl
@[simp] theorem setBlock_ascii (s : State) (bs : List Byte) : (setBlock s bs).ascii = s.ascii := rfl
@[simp] theorem setBlock_hash (s : State) (bs : List Byte) : (setBlock s bs).hash = s.hash := rfl
@[simp] theorem setBlock_mem (s : State) (bs : List Byte) : (setBlock s bs).mem = s.mem.writeBytes blkOff bs := rfl
@[simp] theorem setBlock_hidden (s : State) (bs : List Byte) : (setBlock s bs).hidden = s.hidden := rfl
@[simp] theorem setBlock_events (s : State) (bs : List Byte) : (setBlock s bs).events = s.events := rfl
@[simp] theorem setBlock_responses (s : State) (bs : List Byte) : (setBlock s bs).responses = s.responses := rfl
@[simp] theorem setBlock_draws (s : State) (bs : List Byte) : (setBlock s bs).draws = s.draws := rfl

/-! ### loadCounter -/

@[simp] theorem loadCounter_cmd (s : State) : (loadCounter s).cmd = s.cmd := rfl
@[simp] theorem loadCounter_busy (s : State) : (loadCounter s).busy = s.busy := rfl
@[simp] theorem loadCounter_done (s : State) : (loadCounter s).done = s.done := rfl
@[simp] theorem loadCounter_err (s : State) : (loadCounter s).err = s.err := rfl
@[simp] theorem loadCounter_ovr (s : State) : (loadCounter s).ovr = s.ovr := rfl
@[simp] theorem loadCounter_keyvalid (s : State) : (loadCounter s).keyvalid = s.keyvalid := rfl
@[simp] theorem loadCounter_irqen (s : State) : (loadCounter s).irqen = s.irqen := rfl
@[simp] theorem loadCounter_errcode (s : State) : (loadCounter s).errcode = s.errcode := rfl
@[simp] theorem loadCounter_errinfo (s : State) : (loadCounter s).errinfo = s.errinfo := rfl
@[simp] theorem loadCounter_secLen (s : State) : (loadCounter s).secLen = s.secLen := rfl
@[simp] theorem loadCounter_keyLen (s : State) : (loadCounter s).keyLen = s.keyLen := rfl
@[simp] theorem loadCounter_msgLen (s : State) : (loadCounter s).msgLen = 8#16 := rfl
@[simp] theorem loadCounter_time (s : State) : (loadCounter s).time = s.time := rfl
@[simp] theorem loadCounter_period (s : State) : (loadCounter s).period = s.period := rfl
@[simp] theorem loadCounter_len (s : State) : (loadCounter s).len = s.len := rfl
@[simp] theorem loadCounter_ctr (s : State) : (loadCounter s).ctr = s.ctr := rfl
@[simp] theorem loadCounter_dbc (s : State) : (loadCounter s).dbc = s.dbc := rfl
@[simp] theorem loadCounter_code (s : State) : (loadCounter s).code = s.code := rfl
@[simp] theorem loadCounter_ascii (s : State) : (loadCounter s).ascii = s.ascii := rfl
@[simp] theorem loadCounter_hash (s : State) : (loadCounter s).hash = s.hash := rfl
@[simp] theorem loadCounter_mem (s : State) : (loadCounter s).mem = s.mem.writeBytes msgOff (bytesBE64 s.ctr) := rfl
@[simp] theorem loadCounter_hidden (s : State) : (loadCounter s).hidden = s.hidden := rfl
@[simp] theorem loadCounter_events (s : State) : (loadCounter s).events = s.events := rfl
@[simp] theorem loadCounter_responses (s : State) : (loadCounter s).responses = s.responses := rfl
@[simp] theorem loadCounter_draws (s : State) : (loadCounter s).draws = s.draws := rfl

/-! ### storeKey -/

@[simp] theorem storeKey_cmd (s : State) (k : List Byte) : (storeKey s k).cmd = s.cmd := rfl
@[simp] theorem storeKey_busy (s : State) (k : List Byte) : (storeKey s k).busy = s.busy := rfl
@[simp] theorem storeKey_done (s : State) (k : List Byte) : (storeKey s k).done = s.done := rfl
@[simp] theorem storeKey_err (s : State) (k : List Byte) : (storeKey s k).err = s.err := rfl
@[simp] theorem storeKey_ovr (s : State) (k : List Byte) : (storeKey s k).ovr = s.ovr := rfl
@[simp] theorem storeKey_keyvalid (s : State) (k : List Byte) : (storeKey s k).keyvalid = true := rfl
@[simp] theorem storeKey_irqen (s : State) (k : List Byte) : (storeKey s k).irqen = s.irqen := rfl
@[simp] theorem storeKey_errcode (s : State) (k : List Byte) : (storeKey s k).errcode = s.errcode := rfl
@[simp] theorem storeKey_errinfo (s : State) (k : List Byte) : (storeKey s k).errinfo = s.errinfo := rfl
@[simp] theorem storeKey_secLen (s : State) (k : List Byte) : (storeKey s k).secLen = s.secLen := rfl
@[simp] theorem storeKey_keyLen (s : State) (k : List Byte) : (storeKey s k).keyLen = BitVec.ofNat 16 k.length := rfl
@[simp] theorem storeKey_msgLen (s : State) (k : List Byte) : (storeKey s k).msgLen = s.msgLen := rfl
@[simp] theorem storeKey_time (s : State) (k : List Byte) : (storeKey s k).time = s.time := rfl
@[simp] theorem storeKey_period (s : State) (k : List Byte) : (storeKey s k).period = s.period := rfl
@[simp] theorem storeKey_len (s : State) (k : List Byte) : (storeKey s k).len = s.len := rfl
@[simp] theorem storeKey_ctr (s : State) (k : List Byte) : (storeKey s k).ctr = s.ctr := rfl
@[simp] theorem storeKey_dbc (s : State) (k : List Byte) : (storeKey s k).dbc = s.dbc := rfl
@[simp] theorem storeKey_code (s : State) (k : List Byte) : (storeKey s k).code = s.code := rfl
@[simp] theorem storeKey_ascii (s : State) (k : List Byte) : (storeKey s k).ascii = s.ascii := rfl
@[simp] theorem storeKey_hash (s : State) (k : List Byte) : (storeKey s k).hash = s.hash := rfl
@[simp] theorem storeKey_mem (s : State) (k : List Byte) : (storeKey s k).mem = fillKeyBuf s.mem k := rfl
@[simp] theorem storeKey_hidden (s : State) (k : List Byte) : (storeKey s k).hidden = s.hidden := rfl
@[simp] theorem storeKey_events (s : State) (k : List Byte) : (storeKey s k).events = s.events := rfl
@[simp] theorem storeKey_responses (s : State) (k : List Byte) : (storeKey s k).responses = s.responses := rfl
@[simp] theorem storeKey_draws (s : State) (k : List Byte) : (storeKey s k).draws = s.draws := rfl

/-! ### eraseKey -/

@[simp] theorem eraseKey_cmd (s : State) : (eraseKey s).cmd = s.cmd := rfl
@[simp] theorem eraseKey_busy (s : State) : (eraseKey s).busy = s.busy := rfl
@[simp] theorem eraseKey_done (s : State) : (eraseKey s).done = s.done := rfl
@[simp] theorem eraseKey_err (s : State) : (eraseKey s).err = s.err := rfl
@[simp] theorem eraseKey_ovr (s : State) : (eraseKey s).ovr = s.ovr := rfl
@[simp] theorem eraseKey_keyvalid (s : State) : (eraseKey s).keyvalid = false := rfl
@[simp] theorem eraseKey_irqen (s : State) : (eraseKey s).irqen = s.irqen := rfl
@[simp] theorem eraseKey_errcode (s : State) : (eraseKey s).errcode = s.errcode := rfl
@[simp] theorem eraseKey_errinfo (s : State) : (eraseKey s).errinfo = s.errinfo := rfl
@[simp] theorem eraseKey_secLen (s : State) : (eraseKey s).secLen = s.secLen := rfl
@[simp] theorem eraseKey_keyLen (s : State) : (eraseKey s).keyLen = 0#16 := rfl
@[simp] theorem eraseKey_msgLen (s : State) : (eraseKey s).msgLen = s.msgLen := rfl
@[simp] theorem eraseKey_time (s : State) : (eraseKey s).time = s.time := rfl
@[simp] theorem eraseKey_period (s : State) : (eraseKey s).period = s.period := rfl
@[simp] theorem eraseKey_len (s : State) : (eraseKey s).len = s.len := rfl
@[simp] theorem eraseKey_ctr (s : State) : (eraseKey s).ctr = s.ctr := rfl
@[simp] theorem eraseKey_dbc (s : State) : (eraseKey s).dbc = s.dbc := rfl
@[simp] theorem eraseKey_code (s : State) : (eraseKey s).code = s.code := rfl
@[simp] theorem eraseKey_ascii (s : State) : (eraseKey s).ascii = s.ascii := rfl
@[simp] theorem eraseKey_hash (s : State) : (eraseKey s).hash = s.hash := rfl
@[simp] theorem eraseKey_mem (s : State) : (eraseKey s).mem = fillKeyBuf s.mem [] := by simp only [eraseKey]
@[simp] theorem eraseKey_hidden (s : State) : (eraseKey s).hidden = s.hidden := rfl
@[simp] theorem eraseKey_events (s : State) : (eraseKey s).events = s.events := rfl
@[simp] theorem eraseKey_responses (s : State) : (eraseKey s).responses = s.responses := rfl
@[simp] theorem eraseKey_draws (s : State) : (eraseKey s).draws = s.draws := rfl

end Sys2Proof.Machine
end

