-- ==== Sys2Proof/Laws/Commands.lean ====
section
/-! SUPPORT. What each command's rule can do, said once: its cases, and the fields it leaves alone. -/

namespace Sys2Proof.Machine

/-! ### Results of a rule -/

@[simp] theorem succeed_state (s : State) : (Ran.succeed s).state = s := rfl
@[simp] theorem succeed_error (s : State) : (Ran.succeed s).error = none := rfl
@[simp] theorem succeed_code (s : State) : (Ran.succeed s).code = 0x00#8 := rfl
@[simp] theorem succeed_info (s : State) : (Ran.succeed s).info = 0#24 := rfl
@[simp] theorem raise_state (s : State) (e : CmdError) : (Ran.raise s e).state = s := rfl
@[simp] theorem raise_error (s : State) (e : CmdError) : (Ran.raise s e).error = some e := rfl
@[simp] theorem raise_code (s : State) (e : CmdError) : (Ran.raise s e).code = e.code := rfl
@[simp] theorem raise_info (s : State) (e : CmdError) : (Ran.raise s e).info = e.info := rfl
@[simp] theorem succeed_andThen (s : State) (f : State → Ran) : (Ran.succeed s).andThen f = f s := rfl
@[simp] theorem raise_andThen (s : State) (e : CmdError) (f : State → Ran) :
    (Ran.raise s e).andThen f = .raise s e := rfl

/-- A rule ends with success or with a raise. -/
theorem ran_cases (r : Ran) : r = .succeed r.state ∨ ∃ e, r = .raise r.state e := by
  obtain ⟨s, _ | e⟩ := r
  · exact .inl rfl
  · exact .inr ⟨e, rfl⟩

/-- `do` in its two cases (R174). -/
theorem andThen_cases (r : Ran) (f : State → Ran) :
    (r = .succeed r.state ∧ r.andThen f = f r.state) ∨ ∃ e, r = .raise r.state e ∧ r.andThen f = r := by
  rcases ran_cases r with h | ⟨e, h⟩
  · left
    exact ⟨h, by rw [h]; rfl⟩
  · right
    exact ⟨e, h, by rw [h]; rfl⟩

/-- Every error code is 1 to 5 (R211). -/
theorem errorCode_range (e : CmdError) : 1 ≤ e.code.toNat ∧ e.code.toNat ≤ 5 := by
  cases e <;> simp [CmdError.code]

theorem errorCode_ne_zero (e : CmdError) : e.code ≠ 0x00#8 := by
  intro h
  have := (errorCode_range e).1
  simp [h] at this

theorem ranCode_le (r : Ran) : r.code.toNat ≤ 5 := by
  rcases ran_cases r with h | ⟨e, h⟩ <;> rw [h]
  · simp
  · simpa using (errorCode_range e).2

theorem ranInfo_of_code_zero {r : Ran} (h : r.code = 0x00#8) : r.info = 0#24 := by
  rcases ran_cases r with hr | ⟨e, hr⟩ <;> rw [hr] at h ⊢
  · rfl
  · exact absurd h (errorCode_ne_zero e)

/-! ### The cases of the primitives -/

/-- B32_DECODE in its three cases (R100, R214). -/
theorem runB32Decode_cases (s : State) :
    (secLenBad s = true ∧ runB32Decode s = .raise s (.badLength .secLen s.secLen)) ∨
    (secLenBad s = false ∧ ∃ i c, base32Decode (secretOf s) = .invalid i c ∧
      runB32Decode s = .raise (eraseKey s) (.invalidEncoding i c)) ∨
    (secLenBad s = false ∧ ∃ k, base32Decode (secretOf s) = .bytes k ∧
      runB32Decode s = .succeed (storeKey s k)) := by
  unfold runB32Decode
  cases hb : secLenBad s
  · cases hd : base32Decode (secretOf s) with
    | bytes k => exact .inr (.inr ⟨rfl, k, rfl, by simp⟩)
    | invalid i c => exact .inr (.inl ⟨rfl, i, c, rfl, by simp⟩)
  · exact .inl ⟨rfl, by simp⟩

/-- The state of a successful HMAC (R153). -/
def hmacDone (s : State) : State :=
  setBlock { s with hash := sha1State (hmacOuterMessage (keyOf s) (messageOf s)), len := hmacLen }
    (hmacBlock (hmacInner (keyOf s) (messageOf s)))

/-- HMAC in its four cases (R153, R214). -/
theorem runHmac_cases (s : State) :
    (s.keyvalid = false ∧ runHmac s = .raise s .noKey) ∨
    (s.keyvalid = true ∧ keyLenBad s = true ∧ runHmac s = .raise s (.badLength .keyLen s.keyLen)) ∨
    (s.keyvalid = true ∧ keyLenBad s = false ∧ msgLenBad s = true ∧
      runHmac s = .raise s (.badLength .msgLen s.msgLen)) ∨
    (s.keyvalid = true ∧ keyLenBad s = false ∧ msgLenBad s = false ∧ runHmac s = .succeed (hmacDone s)) := by
  unfold runHmac
  cases h1 : s.keyvalid
  · simp
  · cases h2 : keyLenBad s
    · cases h3 : msgLenBad s
      · simp [hmacDone, h1]
      · simp
    · simp

/-- The state after TRUNC (R173). -/
def truncDone (s : State) : State :=
  { s with
    dbc := truncate (digestOf s.hash)
    code := codeOf (truncate (digestOf s.hash))
    ascii := formatCode (codeOf (truncate (digestOf s.hash))) }

theorem runTrunc_eq (s : State) : runTrunc s = .succeed (truncDone s) := rfl

/-- CTR_TIME in its two cases (R170). -/
theorem runCtrTime_cases (s : State) :
    (s.period = 0#32 ∧ runCtrTime s = .raise s .divZero) ∨
    (s.period ≠ 0#32 ∧ runCtrTime s = .succeed { s with ctr := counterOf s.time s.period }) := by
  unfold runCtrTime
  by_cases h : s.period = 0#32 <;> simp [h]

/-- HOTP in its two cases (R175): HMAC on the loaded counter raises, or TRUNC follows it. -/
theorem runHotp_cases (s : State) :
    (∃ e, runHmac (loadCounter s) = .raise (loadCounter s) e ∧ runHotp s = .raise (loadCounter s) e) ∨
    (runHmac (loadCounter s) = .succeed (hmacDone (loadCounter s)) ∧
      runHotp s = .succeed (truncDone (hmacDone (loadCounter s)))) := by
  unfold runHotp
  rcases runHmac_cases (loadCounter s) with ⟨_, h⟩ | ⟨_, _, h⟩ | ⟨_, _, _, h⟩ | ⟨_, _, _, h⟩
  · exact .inl ⟨_, h, by rw [h]; rfl⟩
  · exact .inl ⟨_, h, by rw [h]; rfl⟩
  · exact .inl ⟨_, h, by rw [h]; rfl⟩
  · exact .inr ⟨h, by rw [h]; rfl⟩

/-! ### What no command's rule writes -/

/-- The fields that no command's rule writes: STATUS but KEYVALID, CMD, IRQEN, SEC_LEN, TIME, PERIOD (R50), and the fields
outside the block. -/
structure KeepsCommon (s t : State) : Prop where
  cmd : t.cmd = s.cmd
  busy : t.busy = s.busy
  done : t.done = s.done
  err : t.err = s.err
  ovr : t.ovr = s.ovr
  irqen : t.irqen = s.irqen
  errcode : t.errcode = s.errcode
  errinfo : t.errinfo = s.errinfo
  secLen : t.secLen = s.secLen
  time : t.time = s.time
  period : t.period = s.period
  hidden : t.hidden = s.hidden
  events : t.events = s.events
  responses : t.responses = s.responses
  draws : t.draws = s.draws

theorem KeepsCommon.refl (s : State) : KeepsCommon s s := by constructor <;> rfl

theorem KeepsCommon.trans {s t u : State} (h : KeepsCommon s t) (g : KeepsCommon t u) : KeepsCommon s u where
  cmd := g.cmd.trans h.cmd
  busy := g.busy.trans h.busy
  done := g.done.trans h.done
  err := g.err.trans h.err
  ovr := g.ovr.trans h.ovr
  irqen := g.irqen.trans h.irqen
  errcode := g.errcode.trans h.errcode
  errinfo := g.errinfo.trans h.errinfo
  secLen := g.secLen.trans h.secLen
  time := g.time.trans h.time
  period := g.period.trans h.period
  hidden := g.hidden.trans h.hidden
  events := g.events.trans h.events
  responses := g.responses.trans h.responses
  draws := g.draws.trans h.draws

theorem keeps_shaInit (s : State) : KeepsCommon s (runShaInit s).state := by constructor <;> rfl
theorem keeps_shaUpdate (s : State) : KeepsCommon s (runShaUpdate s).state := by
  constructor <;> simp only [runShaUpdate, succeed_state]
theorem keeps_shaFinal (n : BitVec 6) (s : State) : KeepsCommon s (runShaFinal n s).state := by
  constructor <;> simp only [runShaFinal, succeed_state, setBlock]
theorem keeps_trunc (s : State) : KeepsCommon s (runTrunc s).state := by constructor <;> rfl
theorem keeps_hmacDone (s : State) : KeepsCommon s (hmacDone s) := by
  constructor <;> simp only [hmacDone, setBlock]
theorem keeps_loadCounter (s : State) : KeepsCommon s (loadCounter s) := by
  constructor <;> simp only [loadCounter]

theorem keeps_b32Decode (s : State) : KeepsCommon s (runB32Decode s).state := by
  rcases runB32Decode_cases s with ⟨_, h⟩ | ⟨_, _, _, _, h⟩ | ⟨_, _, _, h⟩ <;> rw [h]
  · exact .refl s
  · constructor <;> rfl
  · constructor <;> rfl

theorem keeps_hmac (s : State) : KeepsCommon s (runHmac s).state := by
  rcases runHmac_cases s with ⟨_, h⟩ | ⟨_, _, h⟩ | ⟨_, _, _, h⟩ | ⟨_, _, _, h⟩ <;> rw [h]
  · exact .refl s
  · exact .refl s
  · exact .refl s
  · exact keeps_hmacDone s

theorem keeps_ctrTime (s : State) : KeepsCommon s (runCtrTime s).state := by
  rcases runCtrTime_cases s with ⟨_, h⟩ | ⟨_, h⟩ <;> rw [h]
  · exact .refl s
  · constructor <;> rfl

theorem keeps_andThen {s : State} {r : Ran} {f : State → Ran} (hr : KeepsCommon s r.state)
    (hf : ∀ t, KeepsCommon t (f t).state) : KeepsCommon s (r.andThen f).state := by
  rcases andThen_cases r f with ⟨_, h⟩ | ⟨_, _, h⟩ <;> rw [h]
  · exact hr.trans (hf _)
  · exact hr

theorem keeps_hotp (s : State) : KeepsCommon s (runHotp s).state :=
  keeps_andThen ((keeps_loadCounter s).trans (keeps_hmac _)) keeps_trunc

theorem keeps_totp (s : State) : KeepsCommon s (runTotp s).state :=
  keeps_andThen (keeps_ctrTime s) keeps_hotp

theorem keeps_totpSecret (s : State) : KeepsCommon s (runTotpSecret s).state :=
  keeps_andThen (keeps_b32Decode s) keeps_totp

/-- The rule that an instruction of a CMD word runs. -/
def ruleOf (i : Instr) (s : State) : Ran :=
  match i with
  | .nop => .succeed s
  | .shaInit => runShaInit s
  | .shaUpdate => runShaUpdate s
  | .shaFinal n => runShaFinal n s
  | .b32Decode => runB32Decode s
  | .hmac => runHmac s
  | .trunc => runTrunc s
  | .ctrTime => runCtrTime s
  | .hotp => runHotp s
  | .totp => runTotp s
  | .totpSecret => runTotpSecret s
  | .srst => .succeed s
  | .illegal w => .raise s (.illegalCmd w)

/-- Every instruction but SRST is the completion of its rule (R71). -/
theorem exec_eq_complete {i : Instr} (h : i ≠ .srst) (s : State) : exec i s = .next (complete (ruleOf i s)) := by
  cases i <;> first | rfl | exact absurd rfl h

/-- SRST is the reset (R202). -/
theorem exec_srst (s : State) : exec .srst s = .next (resetBlock s) := rfl

/-- No command's rule writes a common field. -/
theorem keeps_ruleOf (i : Instr) (s : State) : KeepsCommon s (ruleOf i s).state := by
  cases i
  case nop => exact .refl s
  case shaInit => exact keeps_shaInit s
  case shaUpdate => exact keeps_shaUpdate s
  case shaFinal n => exact keeps_shaFinal n s
  case b32Decode => exact keeps_b32Decode s
  case hmac => exact keeps_hmac s
  case trunc => exact keeps_trunc s
  case ctrTime => exact keeps_ctrTime s
  case hotp => exact keeps_hotp s
  case totp => exact keeps_totp s
  case totpSecret => exact keeps_totpSecret s
  case srst => exact .refl s
  case illegal w => exact .refl s

/-- A CMD word never decodes to the soft reset (R84). -/
theorem decodeCmd_ne_srst (w : Word) : decodeCmd w ≠ .srst := by
  unfold decodeCmd withoutArg
  split
  · simp
  · split <;> first | (simp; done) | (split <;> simp)

/-- The completion step of an accepted word (R71, R84). -/
theorem exec_decodeCmd (w : Word) (s : State) : exec (decodeCmd w) s = .next (complete (ruleOf (decodeCmd w) s)) :=
  exec_eq_complete (decodeCmd_ne_srst w) s

end Sys2Proof.Machine
end

