-- ==== Sys2Proof/Laws/Bus.lean ====
section
/-! SUPPORT. What one step can do with each kind of input, said once: the transactions at the port, the completion, the
reset; and the register map's answers. -/

namespace Sys2Proof.Machine

@[simp] theorem facing_events (s : State) (e : Event) : (s.facing e).events = e :: s.events := rfl

/-- The next input is handled on the state without it. -/
theorem step_facing (s : State) (e : Event) : step (s.facing e) = handle e s := rfl

theorem step_nil {s : State} (h : s.events = []) : step s = engineStep s := by
  unfold step
  rw [h]

/-- Every step is a completion or no-op with no input left, or the handling of the first input. -/
theorem step_cases (s : State) :
    (s.events = [] ∧ step s = engineStep s) ∨
      ∃ e rest, s.events = e :: rest ∧ step s = handle e { s with events := rest } := by
  unfold step
  cases h : s.events with
  | nil => exact .inl ⟨rfl, rfl⟩
  | cons e rest => exact .inr ⟨e, rest, rfl, rfl⟩

/-- While busy the engine's step is the completion of the accepted word's rule (R71). -/
theorem engineStep_busy {s : State} (h : s.busy = true) :
    engineStep s = .next (complete (ruleOf (decodeCmd s.cmd) s)) := by
  unfold engineStep
  rw [if_pos h, exec_decodeCmd]

theorem engineStep_idle {s : State} (h : s.busy = false) : engineStep s = .next s := by
  unfold engineStep
  rw [if_neg (by simp [h])]

theorem supported_word {off : Nat} (h : off % 4 = 0) : supported off 4 = true := by simp [supported, h]

/-- A word read at an aligned offset. -/
theorem step_read (s : State) {off : BitVec 12} (h : off.toNat % 4 = 0) :
    step (s.facing (readEvent off)) = .next (hostRead off.toNat s) := by
  rw [step_facing]
  simp [readEvent, handle, access, supported_word h]

/-- A word write at an aligned offset. -/
theorem step_write (s : State) {off : BitVec 12} (v : Word) (h : off.toNat % 4 = 0) :
    step (s.facing (writeEvent off v)) = hostWrite off.toNat v s := by
  rw [step_facing]
  simp [writeEvent, handle, access, supported_word h]

/-- A write to any register but CTRL answers a next state. -/
theorem hostWrite_eq {off : Nat} (v : Word) (s : State) (h : regAt off ≠ .ctrl) :
    hostWrite off v s = .next (respond (writeReg (regAt off) v s) .ok) := by
  unfold hostWrite
  split
  · next hc => exact absurd hc h
  · rfl

theorem decode_ctrl_set {v : Word} (h : v.getLsbD 0 = true) : decode ⟨.ctrl, v⟩ = .ok .srst := if_pos h

theorem decode_ctrl_clear {v : Word} (h : v.getLsbD 0 = false) : decode ⟨.ctrl, v⟩ = .error (.noSoftReset v) :=
  if_neg (by rw [h]; exact nofun)

/-- A write to CTRL in its two cases (R25, R202). -/
theorem writeCtrl_cases (v : Word) (s : State) :
    (v.getLsbD 0 = true ∧ writeCtrl v s = .next (resetBlock (respond s .ok))) ∨
      (v.getLsbD 0 = false ∧ writeCtrl v s = .next (respond s .ok)) := by
  unfold writeCtrl
  cases h : v.getLsbD 0
  · exact .inr ⟨rfl, by rw [decode_ctrl_clear h]⟩
  · exact .inl ⟨rfl, by rw [decode_ctrl_set h]; rfl⟩

/-- A transaction at the port in its cases: refused, a read, a write to CTRL, a write to another register. -/
theorem access_cases (off size : Nat) (op : BusOp) (s : State) :
    (supported off size = false ∧ access off size op s = .next (respond s (refusedResponse op))) ∨
    (supported off size = true ∧ op = .read ∧ access off size op s = .next (hostRead off s)) ∨
    (supported off size = true ∧ ∃ v, op = .write v ∧ regAt off = .ctrl ∧ access off size op s = writeCtrl v s) ∨
    (supported off size = true ∧ ∃ v, op = .write v ∧ regAt off ≠ .ctrl ∧
      access off size op s = .next (respond (writeReg (regAt off) v s) .ok)) := by
  unfold access
  cases hs : supported off size
  · exact .inl ⟨rfl, by simp⟩
  · cases op with
    | read => exact .inr (.inl ⟨rfl, rfl, by simp⟩)
    | write v =>
      by_cases hc : regAt off = .ctrl
      · exact .inr (.inr (.inl ⟨rfl, v, rfl, hc, by simp [hostWrite, hc]⟩))
      · exact .inr (.inr (.inr ⟨rfl, v, rfl, hc, by simp [hostWrite_eq v s hc]⟩))

/-- A read in its two cases (R67, R70). -/
theorem hostRead_cases (off : Nat) (s : State) :
    (s.busy = true ∧ definedWhileBusy (regAt off) = false ∧
      hostRead off s = respond { s with draws := s.draws + 1 } (.data (Config.unspecifiedRead s.draws))) ∨
    ((s.busy = false ∨ definedWhileBusy (regAt off) = true) ∧
      hostRead off s = respond s (.data (readReg (regAt off) s))) := by
  unfold hostRead
  cases hb : s.busy <;> cases hd : definedWhileBusy (regAt off) <;> simp

/-- A read that is defined, idle or busy: its data is the register's value and nothing else changes (R67, R70). -/
theorem step_read_defined {s : State} {off : BitVec 12} {r : Reg} (h : off.toNat % 4 = 0) (hr : regAt off.toNat = r)
    (hd : s.busy = false ∨ definedWhileBusy r = true) :
    step (s.facing (readEvent off)) = .next { s with responses := .data (readReg r s) :: s.responses } := by
  rw [step_read s h]
  rcases hostRead_cases off.toNat s with ⟨hb, hf, _⟩ | ⟨_, he⟩
  · rw [hr] at hf
    rcases hd with hd | hd
    · rw [hd] at hb; cases hb
    · rw [hd] at hf; cases hf
  · rw [he, hr]
    rfl

/-- A write while idle to any register but CTRL (R24, R27, R28, R31 to R45). -/
theorem step_write_idle {s : State} {off : BitVec 12} {r : Reg} (v : Word) (h : off.toNat % 4 = 0)
    (hr : regAt off.toNat = r) (hc : r ≠ .ctrl) (hb : s.busy = false) :
    step (s.facing (writeEvent off v)) = .next (respond (writeIdle r v s) .ok) := by
  rw [step_write s v h, hostWrite_eq v s (hr ▸ hc), hr, writeReg, if_neg (by simp [hb])]

/-- A write while busy to any register but CTRL (R69). -/
theorem step_write_busy {s : State} {off : BitVec 12} {r : Reg} (v : Word) (h : off.toNat % 4 = 0)
    (hr : regAt off.toNat = r) (hc : r ≠ .ctrl) (hb : s.busy = true) :
    step (s.facing (writeEvent off v)) = .next (respond (writeBusy r v s) .ok) := by
  rw [step_write s v h, hostWrite_eq v s (hr ▸ hc), hr, writeReg, if_pos hb]

/-- A write to CTRL, idle or busy (R25, R69). -/
theorem step_write_ctrl (s : State) (v : Word) : step (s.facing (writeEvent 0x008#12 v)) = writeCtrl v s := by
  rw [step_write s v (by decide)]
  rfl

/-! ### The register map -/

/-- The register map at the offsets of a buffer. -/
theorem regAt_buffer {off : Nat} (h : isBufferOff off = true) : regAt off = .buffer off := by
  have hb : 0x080 ≤ off := by
    simp only [isBufferOff, Bool.or_eq_true, Bool.and_eq_true, decide_eq_true_eq] at h
    omega
  unfold regAt
  split <;> first | omega | simp [h]

/-- Above the single registers there are buffers and reserved offsets only. -/
theorem regAt_not_buffer {off : Nat} (hb : 0x080 ≤ off) (h : isBufferOff off = false) : regAt off = .reserved := by
  unfold regAt
  split <;> first | omega | simp [h]

/-- The register map's buffer words lie in the buffers. -/
theorem isBufferOff_of_regAt {off k : Nat} (h : regAt off = .buffer k) : k = off ∧ isBufferOff off = true := by
  unfold regAt at h
  split at h <;> first | cases h | skip
  split at h
  · next hb => exact ⟨(Reg.buffer.inj h).symm, hb⟩
  · cases h

/-- The single registers below the buffers, at the aligned offsets: which are RW or CMD, which have reads that are defined
while busy, which are reserved (R21, R69, R70). -/
theorem regAt_low : ∀ o < 0x080, o % 4 = 0 →
    (writeDropped (regAt o) = decide (o = 0x00C ∨ (0x020 ≤ o ∧ o < 0x048) ∨ (0x060 ≤ o ∧ o < 0x074))) ∧
    (definedWhileBusy (regAt o) = decide (o < 0x020 ∨ (0x058 ≤ o ∧ o < 0x060) ∨ 0x074 ≤ o)) ∧
    (decide (regAt o = .reserved) = decide ((0x058 ≤ o ∧ o < 0x060) ∨ 0x074 ≤ o)) := by
  decide +kernel

/-- Where the registers with action writes stand (R21). -/
theorem regAt_low_named : ∀ o < 0x080, o % 4 = 0 →
    (decide (regAt o = .ctrl) = decide (o = 0x008)) ∧ (decide (regAt o = .status) = decide (o = 0x010)) ∧
    (decide (regAt o = .irqen) = decide (o = 0x014)) := by
  decide +kernel

/-- The register map by class, at every aligned offset (R21, R69, R70). -/
theorem regAt_class {o : Nat} (h4 : o % 4 = 0) :
    (writeDropped (regAt o) = true ↔ rwOffset o) ∧ (regAt o = .reserved ↔ reservedOffset o) ∧
    (definedWhileBusy (regAt o) = true ↔ o < 0x020 ∨ reservedOffset o) := by
  unfold rwOffset reservedOffset
  by_cases h : o < 0x080
  · obtain ⟨h1, h2, h3⟩ := regAt_low o h h4
    rw [h1, h2, decide_eq_true_eq, decide_eq_true_eq]
    rw [decide_eq_decide] at h3
    rw [h3]
    refine ⟨?_, ?_, ?_⟩ <;> omega
  · cases hb : isBufferOff o
    · have hb' : ¬ isBufferOff o = true := by simp [hb]
      simp only [isBufferOff, Bool.or_eq_true, Bool.and_eq_true, decide_eq_true_eq] at hb'
      rw [regAt_not_buffer (by omega) hb]
      exact ⟨iff_of_false Bool.false_ne_true (by omega), iff_of_true rfl (by omega), iff_of_true rfl (by omega)⟩
    · rw [regAt_buffer hb]
      simp only [isBufferOff, Bool.or_eq_true, Bool.and_eq_true, decide_eq_true_eq] at hb
      exact ⟨iff_of_true rfl (by omega), iff_of_false nofun (by omega), iff_of_false Bool.false_ne_true (by omega)⟩

/-- CTRL, STATUS and IRQEN stand at one offset each (R21). -/
theorem regAt_named {o : Nat} (h4 : o % 4 = 0) :
    (regAt o = .ctrl ↔ o = 0x008) ∧ (regAt o = .status ↔ o = 0x010) ∧ (regAt o = .irqen ↔ o = 0x014) := by
  by_cases h : o < 0x080
  · obtain ⟨h1, h2, h3⟩ := regAt_low_named o h h4
    rw [decide_eq_decide] at h1 h2 h3
    exact ⟨h1, h2, h3⟩
  · cases hb : isBufferOff o
    · rw [regAt_not_buffer (by omega) hb]
      refine ⟨?_, ?_, ?_⟩ <;> exact iff_of_false nofun (by omega)
    · rw [regAt_buffer hb]
      refine ⟨?_, ?_, ?_⟩ <;> exact iff_of_false nofun (by omega)

/-! ### Register halves (R66) -/

@[simp] theorem hiHalf_setLo (x : BitVec 64) (v : Word) : hiHalf (setLo x v) = hiHalf x := by
  unfold setLo hiHalf
  apply BitVec.eq_of_getLsbD_eq
  intro i hi
  simp only [BitVec.getLsbD_extractLsb', BitVec.getLsbD_append, hi, decide_true, Bool.true_and,
    show ¬ 32 + i < 32 by omega, if_false]
  simp [hi]

@[simp] theorem loHalf_setLo (x : BitVec 64) (v : Word) : loHalf (setLo x v) = v := by
  unfold setLo loHalf
  apply BitVec.eq_of_getLsbD_eq
  intro i hi
  rw [BitVec.getLsbD_extractLsb', BitVec.getLsbD_append]
  simp [hi]

@[simp] theorem hiHalf_setHi (x : BitVec 64) (v : Word) : hiHalf (setHi x v) = v := by
  unfold setHi hiHalf
  apply BitVec.eq_of_getLsbD_eq
  intro i hi
  rw [BitVec.getLsbD_extractLsb', BitVec.getLsbD_append]
  simp [hi]

@[simp] theorem loHalf_setHi (x : BitVec 64) (v : Word) : loHalf (setHi x v) = loHalf x := by
  unfold setHi loHalf
  apply BitVec.eq_of_getLsbD_eq
  intro i hi
  rw [BitVec.getLsbD_extractLsb', BitVec.getLsbD_append]
  simp [hi]

/-- A length register keeps the low 16 bits of what is written (R31, R32, R33). -/
theorem low16 (v : Word) : (v.extractLsb' 0 16).setWidth 32 = v &&& 0xFFFF#32 := by
  have hm : ∀ i < 32, (0xFFFF#32).getLsbD i = decide (i < 16) := by decide
  apply BitVec.eq_of_getLsbD_eq
  intro i hi
  simp only [BitVec.getLsbD_setWidth, BitVec.getLsbD_extractLsb', BitVec.getLsbD_and, hm i hi]
  simp [hi, Bool.and_comm]

end Sys2Proof.Machine
end

