-- ==== Sys2Proof/Laws/Assembler.lean ====
section
/-! SUPPORT. What a turn of a host program does, and the loops of R88: `WAIT` ends on the first read of STATUS with
BUSY = 0, `WAITIRQ`'s wait ends exactly when irq is 1. -/

namespace Sys2Proof.Machine

/-- Bit 0 of the STATUS word is BUSY (R26). -/
theorem statusWord_bit0 (s : State) : (statusWord s).getLsbD 0 = s.busy := by
  unfold statusWord bit
  cases s.busy <;> cases s.done <;> cases s.err <;> cases s.ovr <;> cases s.keyvalid <;> rfl

/-- A read of STATUS answers the STATUS word, idle or busy (R26, R70). -/
theorem handle_readStatus (s : State) :
    handle (readEvent statusOff) s = .next (respond s (.data (statusWord s))) := by
  show Host.Outcome.next (hostRead 0x010 s) = _
  rw [show hostRead 0x010 s = respond s (.data (statusWord s)) from by simp [hostRead, regAt, definedWhileBusy, readReg]]

@[simp] theorem lastReadBit0_respond (s : State) (v : Word) : lastReadBit0 (respond s (.data v)) = v.getLsbD 0 := rfl

@[simp] theorem runTurns_nil (r : HostRun) : runTurns [] r = .next r := rfl

theorem runTurns_cons {k : Turn} {r r' : HostRun} (h : takeTurn k r = .next r') (ks : List Turn) :
    runTurns (k :: ks) r = runTurns ks r' := by
  rw [runTurns, h]

/-- One read of `WAIT`: the loop goes on while BUSY = 1 and ends with the read that shows BUSY = 0. -/
theorem takeTurn_pollBusy (s : State) (rest : List HostOp) :
    takeTurn .host ⟨s, .pollBusy :: rest⟩ =
      .next ⟨respond s (.data (statusWord s)), if s.busy then .pollBusy :: rest else rest⟩ := by
  simp only [takeTurn, hostTurn, afterInput, handle_readStatus, lastReadBit0_respond, statusWord_bit0]

/-- `WAITIRQ`'s wait looks at irq alone. -/
theorem takeTurn_awaitIrq (s : State) (rest : List HostOp) :
    takeTurn .host ⟨s, .awaitIrq :: rest⟩ = .next ⟨s, if irq s then rest else .awaitIrq :: rest⟩ := rfl

/-- A completion between two turns leaves the host's operations as they are. -/
theorem takeTurn_complete {s : State} (h : s.busy = true) (todo : List HostOp) :
    takeTurn (.other .complete) ⟨s, todo⟩ = .next ⟨complete (ruleOf (decodeCmd s.cmd) s), todo⟩ := by
  simp only [takeTurn, afterInput, handle, engineStep, h, if_true, exec_decodeCmd]

/-- However many reads come before the completion, `WAIT` ends on the read after it, with BUSY = 0. -/
theorem wait_ends_after_completion (n : Nat) {s : State} (h : s.busy = true) (rest : List HostOp) :
    ∃ t, runTurns (List.replicate n .host ++ [.other .complete, .host]) ⟨s, .pollBusy :: rest⟩ = .next ⟨t, rest⟩ ∧
      t.busy = false := by
  induction n generalizing s with
  | zero =>
    let u := complete (ruleOf (decodeCmd s.cmd) s)
    refine ⟨respond u (.data (statusWord u)), ?_, rfl⟩
    rw [List.replicate_zero, List.nil_append, runTurns_cons (takeTurn_complete h _),
      runTurns_cons (takeTurn_pollBusy u rest), if_neg (show ¬ u.busy = true from Bool.false_ne_true), runTurns_nil]
  | succ n ih =>
    have hb : (respond s (.data (statusWord s))).busy = true := h
    obtain ⟨t, ht, hi⟩ := ih hb
    refine ⟨t, ?_, hi⟩
    rw [List.replicate_succ, List.cons_append, runTurns_cons (takeTurn_pollBusy s rest), if_pos h, ht]

end Sys2Proof.Machine
end

