-- ==== Sys2Proof/Laws/Base32.lean ====
section
/-! SUPPORT. The scan of the Base32 decoder, one character at a time, and the length of what it puts out (R105, R106). -/

namespace Sys2Proof.Machine

/-- The scan at a byte outside the alphabet (R106). -/
theorem scan_invalid {c : Byte} {rest : List Byte} (h : alphabetValue (foldCase c) = none) (i acc nbits : Nat)
    (k : List Byte) : scan (c :: rest) i acc nbits k = .invalid i c := by
  rw [scan, h]

/-- The scan at a character that completes no output byte (R106). -/
theorem scan_keep {c : Byte} {rest : List Byte} {v : Nat} (h : alphabetValue (foldCase c) = some v) {nbits : Nat}
    (hn : nbits < 3) (i acc : Nat) (k : List Byte) :
    scan (c :: rest) i acc nbits k = scan rest (i + 1) (acc * 32 + v) (nbits + 5) k := by
  simp only [scan, h]
  rw [if_neg (by omega)]

/-- The scan at a character that completes an output byte (R106). -/
theorem scan_emit {c : Byte} {rest : List Byte} {v : Nat} (h : alphabetValue (foldCase c) = some v) {nbits : Nat}
    (hn : 3 ≤ nbits) (i acc : Nat) (k : List Byte) :
    scan (c :: rest) i acc nbits k =
      scan rest (i + 1) ((acc * 32 + v) % 2 ^ (nbits - 3)) (nbits - 3)
        (k ++ [BitVec.ofNat 8 ((acc * 32 + v) / 2 ^ (nbits - 3))]) := by
  simp only [scan, h]
  rw [if_pos (by omega), show nbits + 5 - 8 = nbits - 3 by omega]

/-- The length of what a scan puts out (R105). -/
theorem scan_length {s : List Byte} : ∀ {i acc nbits : Nat} {k out : List Byte}, nbits < 8 →
    scan s i acc nbits k = .bytes out → out.length = k.length + (nbits + 5 * s.length) / 8 := by
  induction s with
  | nil =>
    intro i acc nbits k out hn h
    simp only [scan, Decoded.bytes.injEq] at h
    subst h
    simp
    omega
  | cons c rest ih =>
    intro i acc nbits k out hn h
    cases hv : alphabetValue (foldCase c) with
    | none => rw [scan_invalid hv] at h; cases h
    | some v =>
      simp only [List.length_cons]
      by_cases h3 : nbits < 3
      · rw [scan_keep hv h3] at h
        rw [ih (by omega) h]
        omega
      · rw [scan_emit hv (by omega)] at h
        rw [ih (by omega) h, List.length_append, List.length_singleton]
        omega

/-- The strip never lengthens a secret (R101). -/
theorem length_stripPad_le (s : List Byte) : (stripPad s).length ≤ s.length := by
  have h := (List.dropWhile_sublist (l := s.reverse) (· == 0x3D#8)).length_le
  simpa [stripPad] using h

/-- A value of the alphabet has five bits (R103). -/
theorem alphabetValue_lt {c : Byte} {v : Nat} (h : alphabetValue c = some v) : v < 32 := by
  unfold alphabetValue at h
  split at h
  · simp only [Option.some.injEq] at h; omega
  · split at h
    · simp only [Option.some.injEq] at h; omega
    · cases h

/-- A decoded secret that fits SECBUF fits KEYBUF (R105). -/
theorem decoded_length_le {s k : List Byte} (h : base32Decode s = .bytes k) (hs : s.length ≤ 256) :
    k.length ≤ 160 := by
  have h1 := scan_length (by omega) h
  have h2 := length_stripPad_le s
  simp only [List.length_nil] at h1
  omega

end Sys2Proof.Machine
end

