-- ==== Sys2Proof/Laws/Codec.lean ====
section
/-! SUPPORT. The fields of a command word, and what a decoded word looks like. -/

namespace Sys2Proof

@[simp] theorem opField_cmdWord (op : BitVec 8) (arg : BitVec 6) : opField (cmdWord op arg) = op := by
  unfold opField cmdWord
  apply BitVec.eq_of_getLsbD_eq
  intro i hi
  simp [hi, show i < 32 by omega]

@[simp] theorem argField_cmdWord (op : BitVec 8) (arg : BitVec 6) : argField (cmdWord op arg) = arg := by
  unfold argField cmdWord
  apply BitVec.eq_of_getLsbD_eq
  intro i hi
  simp [hi, show 8 + i < 32 by omega]

@[simp] theorem rsvField_cmdWord (op : BitVec 8) (arg : BitVec 6) : rsvField (cmdWord op arg) = 0#18 := by
  unfold rsvField cmdWord
  apply BitVec.eq_of_getLsbD_eq
  intro i hi
  have h1 : op.getLsbD (14 + i) = false := BitVec.getLsbD_of_ge _ _ (by omega)
  have h2 : arg.getLsbD (14 + i - 8) = false := BitVec.getLsbD_of_ge _ _ (by omega)
  simp [h1, h2]

/-- A word with RSV = 0 is made of its OP and its ARG (R80). -/
theorem cmdWord_fields {w : Word} (h : rsvField w = 0#18) : cmdWord (opField w) (argField w) = w := by
  unfold opField argField rsvField cmdWord at *
  apply BitVec.eq_of_getLsbD_eq
  intro i hi
  by_cases h8 : i < 8
  · simp [h8, hi]
  · by_cases h14 : i < 14
    · simp [h8, hi, show i - 8 < 6 by omega, show 8 + (i - 8) = i by omega]
    · have hb : (w.extractLsb' 14 18).getLsbD (i - 14) = false := by rw [h]; simp
      simp only [BitVec.getLsbD_extractLsb', show i - 14 < 18 by omega, show 14 + (i - 14) = i by omega,
        decide_true, Bool.true_and] at hb
      rw [hb]
      simp [h8, hi, show ¬ i - 8 < 6 by omega]

/-- SHA_FINAL's words are covered by a row (R81). -/
theorem legalWord_shaFinal (n : BitVec 6) : legalWord (cmdWord 0x03#8 n) = true := by
  revert n
  decide

/-- The opcode of each command without an ARG (R83). -/
def plainOpcode : Instr → Option (BitVec 8)
  | .nop => some 0x00#8
  | .shaInit => some 0x01#8
  | .shaUpdate => some 0x02#8
  | .b32Decode => some 0x10#8
  | .hmac => some 0x20#8
  | .trunc => some 0x30#8
  | .ctrTime => some 0x40#8
  | .hotp => some 0x41#8
  | .totp => some 0x42#8
  | .totpSecret => some 0x43#8
  | .shaFinal _ => none
  | .srst => none
  | .illegal _ => none

theorem encode_plain {i : Instr} {op : BitVec 8} (h : plainOpcode i = some op) : encode i = ⟨.cmd, cmdWord op 0#6⟩ := by
  cases i <;> simp only [plainOpcode, Option.some.injEq, reduceCtorEq] at h <;> subst h <;> rfl

/-- The decoder's answer, by the word (R84): a plain command of its opcode, SHA_FINAL, or ILLEGAL. -/
theorem decodeCmd_cases (w : Word) :
    (∃ i op, plainOpcode i = some op ∧ decodeCmd w = i ∧ w = cmdWord op 0#6) ∨
    (∃ n, decodeCmd w = .shaFinal n ∧ w = cmdWord 0x03#8 n) ∨
    (decodeCmd w = .illegal w ∧
      (rsvField w ≠ 0#18 ∨ (∀ i op, plainOpcode i = some op → opField w = op → argField w ≠ 0#6) ∧
        opField w ≠ 0x03#8)) := by
  by_cases hr : rsvField w = 0#18
  swap
  · exact .inr (.inr ⟨by simp [decodeCmd, hr], .inl hr⟩)
  have hw := cmdWord_fields hr
  by_cases h3 : opField w = 0x03#8
  · exact .inr (.inl ⟨argField w, by simp [decodeCmd, hr, h3], by rw [← h3, hw]⟩)
  by_cases hp : ∃ i op, plainOpcode i = some op ∧ opField w = op ∧ argField w = 0#6
  · obtain ⟨i, op, hi, ho, ha⟩ := hp
    refine .inl ⟨i, op, hi, ?_, by rw [← ho, ← ha, hw]⟩
    cases i <;> simp only [plainOpcode, Option.some.injEq, reduceCtorEq] at hi <;> subst hi <;>
      simp [decodeCmd, withoutArg, hr, ho, ha]
  · refine .inr (.inr ⟨?_, .inr ⟨fun i op hi ho ha => hp ⟨i, op, hi, ho, ha⟩, h3⟩⟩)
    have key : ∀ i op, plainOpcode i = some op → (opField w).toNat = op.toNat → argField w ≠ 0#6 := fun i op hi ho ha =>
      hp ⟨i, op, hi, BitVec.eq_of_toNat_eq ho, ha⟩
    have h3' : (opField w).toNat ≠ 3 := fun h => h3 (BitVec.eq_of_toNat_eq h)
    unfold decodeCmd withoutArg
    rw [if_neg (by simpa using hr)]
    split <;> first | rfl | skip
    case h_4 h => exact absurd h h3'
    case h_1 h => exact if_neg (key .nop _ rfl h)
    case h_2 h => exact if_neg (key .shaInit _ rfl h)
    case h_3 h => exact if_neg (key .shaUpdate _ rfl h)
    case h_5 h => exact if_neg (key .b32Decode _ rfl h)
    case h_6 h => exact if_neg (key .hmac _ rfl h)
    case h_7 h => exact if_neg (key .trunc _ rfl h)
    case h_8 h => exact if_neg (key .ctrTime _ rfl h)
    case h_9 h => exact if_neg (key .hotp _ rfl h)
    case h_10 h => exact if_neg (key .totp _ rfl h)
    case h_11 h => exact if_neg (key .totpSecret _ rfl h)

/-- A plain command's word is covered by a row. -/
theorem legalWord_plain {i : Instr} {op : BitVec 8} (h : plainOpcode i = some op) : legalWord (cmdWord op 0#6) = true := by
  cases i <;> simp only [plainOpcode, Option.some.injEq, reduceCtorEq] at h <;> subst h <;> decide

end Sys2Proof
end

