-- ==== Sys2Proof/Laws/Invariant.lean ====
section
/-! SUPPORT. What every command's rule keeps: memory canonical and inside the buffers, results that agree with each
other; and which bytes of memory a rule may write. -/

namespace Sys2Proof.Machine

/-- Memory is canonical and lists only bytes of the buffers. -/
def GoodMem (m : Memory) : Prop := m.wf = true ∧ ∀ c ∈ m, isBufferOff c.1 = true

theorem goodMem_nil : GoodMem [] := ⟨rfl, by simp⟩

/-- Storing a byte string inside the buffers keeps memory good. -/
theorem GoodMem.writeBytes {m : Memory} (h : GoodMem m) {a : Nat} {bs : List Byte}
    (hr : ∀ x, a ≤ x → x < a + bs.length → isBufferOff x = true) : GoodMem (m.writeBytes a bs) :=
  ⟨Memory.writeBytes_wf h.1 a bs, fun c hc => (Memory.mem_writeBytes hc).elim (h.2 c) fun ⟨h1, h2⟩ => hr c.1 h1 h2⟩

theorem isBufferOff_iff (x : Nat) :
    isBufferOff x = true ↔ (0x080 ≤ x ∧ x < 0x1A0) ∨ (0x200 ≤ x ∧ x < 0x300) := by
  simp [isBufferOff]

/-- A stored word at an aligned buffer offset stays inside the buffers. -/
theorem GoodMem.writeWord {m : Memory} (h : GoodMem m) {a : Nat} (ha : isBufferOff a = true) (h4 : a % 4 = 0) (v : Word) :
    GoodMem (m.writeWord a v) := by
  refine h.writeBytes fun x h1 h2 => ?_
  rw [Memory.length_bytesBE32] at h2
  rw [isBufferOff_iff] at ha ⊢
  omega

@[simp] theorem length_fill {k : List Byte} (h : k.length ≤ 160) :
    (k ++ zeros (Config.keyBytes - k.length)).length = 160 := by
  have : Config.keyBytes = 160 := rfl
  simp only [List.length_append, length_zeros]
  omega

theorem GoodMem.setBlock {s : State} (h : GoodMem s.mem) {bs : List Byte} (hb : bs.length = 64) :
    GoodMem (setBlock s bs).mem :=
  h.writeBytes fun x h1 h2 => by
    have : blkOff = 0x080 := rfl
    rw [isBufferOff_iff]
    omega

theorem GoodMem.fillKeyBuf {m : Memory} (h : GoodMem m) {k : List Byte} (hk : k.length ≤ 160) :
    GoodMem (fillKeyBuf m k) :=
  h.writeBytes fun x h1 h2 => by
    rw [length_fill hk] at h2
    have : keyOff = 0x100 := rfl
    rw [isBufferOff_iff]
    omega

theorem secLen_le {s : State} (h : secLenBad s = false) : s.secLen.toNat ≤ 256 := by
  have h' := of_decide_eq_false h
  have : Config.secBytes = 256 := rfl
  omega

/-- What a decoded secret in SECBUF amounts to: at most 160 bytes (R105). -/
theorem decodedKey_le {s : State} {k : List Byte} (h : secLenBad s = false)
    (hd : base32Decode (secretOf s) = .bytes k) : k.length ≤ 160 :=
  decoded_length_le hd (by simpa [secretOf] using secLen_le h)

/-- Results that agree with each other (R39, R40). -/
def ResultsAgree (s : State) : Prop :=
  s.code = codeOf s.dbc ∧ (s.ascii = formatCode s.code ∨ (s.ascii = ⟨0, 0, 0, 0, 0, 0⟩ ∧ s.dbc = 0#31))

theorem ResultsAgree.congr {s t : State} (h : ResultsAgree s) (hd : t.dbc = s.dbc) (hc : t.code = s.code)
    (ha : t.ascii = s.ascii) : ResultsAgree t := by
  unfold ResultsAgree
  rw [hd, hc, ha]
  exact h

/-- What every rule keeps. -/
structure Kept (s : State) : Prop where
  mem : GoodMem s.mem
  results : ResultsAgree s

theorem kept_hmacDone {s : State} (h : Kept s) : Kept (hmacDone s) :=
  ⟨GoodMem.setBlock h.mem (length_hmacBlock (length_hmacInner _ _)), h.results.congr rfl rfl rfl⟩

theorem kept_loadCounter {s : State} (h : Kept s) : Kept (loadCounter s) :=
  ⟨h.mem.writeBytes fun x h1 h2 => by
      rw [Memory.length_bytesBE64] at h2
      have : msgOff = 0x0C0 := rfl
      rw [isBufferOff_iff]
      omega,
    h.results.congr rfl rfl rfl⟩

theorem kept_truncDone {s : State} (h : Kept s) : Kept (truncDone s) := ⟨h.mem, rfl, .inl rfl⟩

theorem kept_hmac {s : State} (h : Kept s) : Kept (runHmac s).state := by
  rcases runHmac_cases s with ⟨_, e⟩ | ⟨_, _, e⟩ | ⟨_, _, _, e⟩ | ⟨_, _, _, e⟩ <;> rw [e]
  · exact h
  · exact h
  · exact h
  · exact kept_hmacDone h

theorem kept_eraseKey {s : State} (h : Kept s) : Kept (eraseKey s) :=
  ⟨by rw [eraseKey_mem]; exact h.mem.fillKeyBuf (k := []) (Nat.zero_le _), h.results.congr rfl rfl rfl⟩

theorem kept_storeKey {s : State} (h : Kept s) {k : List Byte} (hk : k.length ≤ 160) : Kept (storeKey s k) :=
  ⟨by rw [storeKey_mem]; exact h.mem.fillKeyBuf hk, h.results.congr rfl rfl rfl⟩

theorem kept_b32Decode {s : State} (h : Kept s) : Kept (runB32Decode s).state := by
  rcases runB32Decode_cases s with ⟨_, e⟩ | ⟨_, _, _, _, e⟩ | ⟨hb, k, hk, e⟩ <;> rw [e]
  · exact h
  · exact kept_eraseKey h
  · exact kept_storeKey h (decodedKey_le hb hk)

theorem kept_ctrTime {s : State} (h : Kept s) : Kept (runCtrTime s).state := by
  rcases runCtrTime_cases s with ⟨_, e⟩ | ⟨_, e⟩ <;> rw [e]
  · exact h
  · exact ⟨h.mem, h.results.congr rfl rfl rfl⟩

theorem kept_andThen {r : Ran} {f : State → Ran} (hr : Kept r.state) (hf : ∀ t, Kept t → Kept (f t).state) :
    Kept (r.andThen f).state := by
  rcases andThen_cases r f with ⟨_, e⟩ | ⟨_, _, e⟩ <;> rw [e]
  · exact hf _ hr
  · exact hr

theorem kept_hotp {s : State} (h : Kept s) : Kept (runHotp s).state :=
  kept_andThen (kept_hmac (kept_loadCounter h)) fun _ => kept_truncDone

theorem kept_totp {s : State} (h : Kept s) : Kept (runTotp s).state :=
  kept_andThen (kept_ctrTime h) fun _ => kept_hotp

/-- Every command's rule keeps memory good and the results in agreement. -/
theorem kept_ruleOf (i : Instr) {s : State} (h : Kept s) : Kept (ruleOf i s).state := by
  cases i
  case nop => exact h
  case shaInit => exact ⟨h.mem, h.results.congr rfl rfl rfl⟩
  case shaUpdate =>
    simp only [ruleOf, runShaUpdate, succeed_state]
    exact ⟨h.mem, h.results.congr rfl rfl rfl⟩
  case shaFinal n =>
    refine ⟨GoodMem.setBlock h.mem (length_lastPadded ?_ _), h.results.congr rfl rfl rfl⟩
    rw [length_tailOf]
    exact tailCount_le n
  case b32Decode => exact kept_b32Decode h
  case hmac => exact kept_hmac h
  case trunc => exact kept_truncDone h
  case ctrTime => exact kept_ctrTime h
  case hotp => exact kept_hotp h
  case totp => exact kept_totp h
  case totpSecret => exact kept_andThen (kept_b32Decode h) fun _ => kept_totp
  case srst => exact h
  case illegal w => exact h

/-! ### Where a rule may write -/

/-- BLK is the only memory that a successful HMAC writes. -/
theorem read_setBlock {s : State} (h : s.mem.wf = true) {bs : List Byte} (hb : bs.length = 64) {x : Nat}
    (hx : x < 0x080 ∨ 0x0C0 ≤ x) : (setBlock s bs).mem.read x = s.mem.read x :=
  Memory.read_writeBytes_outside h (by have : blkOff = 0x080 := rfl; omega)

theorem block_setBlock {s : State} (h : s.mem.wf = true) {bs : List Byte} (hb : bs.length = 64) :
    blockOf (setBlock s bs) = bs := by
  have := Memory.readBytes_writeBytes h blkOff bs
  rwa [hb] at this

/-- KEYBUF is the only memory that a decode writes. -/
theorem read_fillKeyBuf {m : Memory} (h : m.wf = true) {k : List Byte} (hk : k.length ≤ 160) {x : Nat}
    (hx : x < 0x100 ∨ 0x1A0 ≤ x) : (fillKeyBuf m k).read x = m.read x :=
  Memory.read_writeBytes_outside h (by
    have : keyOff = 0x100 := rfl
    have := length_fill hk
    omega)

theorem keyBuf_fillKeyBuf {m : Memory} (h : m.wf = true) {k : List Byte} (hk : k.length ≤ 160) :
    (fillKeyBuf m k).readBytes 0x100 160 = k ++ zeros (160 - k.length) := by
  have := Memory.readBytes_writeBytes h keyOff (k ++ zeros (Config.keyBytes - k.length))
  rwa [length_fill hk] at this

/-- The key that a decode stores reads back as the key (R100). -/
theorem keyOf_storeKey {s : State} (h : s.mem.wf = true) {k : List Byte} (hk : k.length ≤ 160) :
    keyOf (storeKey s k) = k := by
  have hl : (BitVec.ofNat 16 k.length).toNat = k.length := by
    rw [BitVec.toNat_ofNat]
    exact Nat.mod_eq_of_lt (by omega)
  unfold keyOf
  rw [storeKey_keyLen, storeKey_mem, hl, fillKeyBuf,
    Memory.readBytes_writeBytes_prefix h _ _ _ (by simp)]
  simp

/-- MSGBUF[0..8) is the only memory that loading the counter writes. -/
theorem read_loadCounter {s : State} (h : s.mem.wf = true) {x : Nat} (hx : x < 0x0C0 ∨ 0x0C8 ≤ x) :
    (loadCounter s).mem.read x = s.mem.read x :=
  Memory.read_writeBytes_outside h (by
    have : msgOff = 0x0C0 := rfl
    rw [Memory.length_bytesBE64]
    omega)

theorem messageOf_loadCounter {s : State} (h : s.mem.wf = true) : messageOf (loadCounter s) = bytesBE64 s.ctr :=
  Memory.readBytes_writeBytes h msgOff (bytesBE64 s.ctr)

theorem keyOf_loadCounter {s : State} (h : s.mem.wf = true) : keyOf (loadCounter s) = keyOf s :=
  Memory.readBytes_congr fun x h1 _ => read_loadCounter h (.inr (by have : keyOff = 0x100 := rfl; omega))

end Sys2Proof.Machine
end

