-- ==== Sys2Proof/Laws/PerInstr.lean ====
section
/-! SUPPORT. The family RowOfEncoding: the encoding of an instruction lies in the row of spec/opcode_table.json that the
instruction is of, and in the register that row's format names. -/

namespace Sys2Proof.Laws.RowOfEncoding

/-- The CMDW row of a mnemonic. -/
def cmdRow (mnemonic : String) : Option OpcodeRow := cmdRows.find? (·.mnemonic == mnemonic)

/-- A frame lies in the CMDW row of a mnemonic. -/
def inCmdRow (mnemonic : String) (f : Frame) : Bool :=
  f.port == .cmd && (cmdRow mnemonic).any (·.covers f.data)

/-- What the family says of an instruction: an illegal word is one that no row covers. -/
def Statement : Instr → Prop
  | .nop => inCmdRow "NOP" (encode .nop) = true
  | .shaInit => inCmdRow "SHA_INIT" (encode .shaInit) = true
  | .shaUpdate => inCmdRow "SHA_UPDATE" (encode .shaUpdate) = true
  | .shaFinal n => inCmdRow "SHA_FINAL_n" (encode (.shaFinal n)) = true
  | .b32Decode => inCmdRow "B32_DECODE" (encode .b32Decode) = true
  | .hmac => inCmdRow "HMAC" (encode .hmac) = true
  | .trunc => inCmdRow "TRUNC" (encode .trunc) = true
  | .ctrTime => inCmdRow "CTR_TIME" (encode .ctrTime) = true
  | .hotp => inCmdRow "HOTP" (encode .hotp) = true
  | .totp => inCmdRow "TOTP" (encode .totp) = true
  | .totpSecret => inCmdRow "TOTP_SECRET" (encode .totpSecret) = true
  | .srst => (encode .srst).port = .ctrl ∧ srstRow.covers (encode .srst).data = true
  | .illegal w => Instr.WellFormed (.illegal w) → ∀ r ∈ cmdRows, r.covers (encode (.illegal w)).data = false

theorem nop : Statement .nop := by unfold Statement; decide
theorem shaInit : Statement .shaInit := by unfold Statement; decide
theorem shaUpdate : Statement .shaUpdate := by unfold Statement; decide
theorem shaFinal (n : BitVec 6) : Statement (.shaFinal n) := by
  revert n
  unfold Statement
  decide
theorem b32Decode : Statement .b32Decode := by unfold Statement; decide
theorem hmac : Statement .hmac := by unfold Statement; decide
theorem trunc : Statement .trunc := by unfold Statement; decide
theorem ctrTime : Statement .ctrTime := by unfold Statement; decide
theorem hotp : Statement .hotp := by unfold Statement; decide
theorem totp : Statement .totp := by unfold Statement; decide
theorem totpSecret : Statement .totpSecret := by unfold Statement; decide
theorem srst : Statement .srst := by unfold Statement; decide
theorem illegal (w : Word) : Statement (.illegal w) := by
  intro h r hr
  have hl : legalWord w = false := by
    change (!legalWord w) = true at h
    simpa using h
  change r.covers w = false
  simpa using List.any_eq_false.1 hl r hr

end Sys2Proof.Laws.RowOfEncoding
end

