-- ==== Sys2Proof/Tests/Slice0.lean ====
section
/-! SUPPORT. The model's own tests: well-formedness refusals, words written out from R80 and R83, one-step tests whose expected
values are the worked examples and derived vectors of 95_test_vectors.md, and the witnesses of the obligations'
hypotheses. -/

namespace Sys2Proof.Tests

open Sys2Proof Sys2Proof.Machine

/-! ### Helpers -/

/-- The outcome is a next state with the property. -/
def goesTo (o : Host.Outcome State Fault Refusal) (p : State → Bool) : Bool :=
  match o with
  | .next t => p t
  | .fault _ => false
  | .refused _ => false

/-- The latest response is the data of a read. -/
def gotData (v : Word) (t : State) : Bool := t.responses.head? == some (.data v)

/-- `ASCII("12345678901234567890")`, the key K20 of 95_test_vectors.md. -/
def k20 : List Byte :=
  [0x31#8, 0x32#8, 0x33#8, 0x34#8, 0x35#8, 0x36#8, 0x37#8, 0x38#8, 0x39#8, 0x30#8] ++
  [0x31#8, 0x32#8, 0x33#8, 0x34#8, 0x35#8, 0x36#8, 0x37#8, 0x38#8, 0x39#8, 0x30#8]

/-- `ASCII("GEZDGNBVGY3TQOJQGEZDGNBVGY3TQOJQ")`, K20 in Base32 (E3). -/
def k20Secret : List Byte :=
  [0x47#8, 0x45#8, 0x5A#8, 0x44#8, 0x47#8, 0x4E#8, 0x42#8, 0x56#8, 0x47#8, 0x59#8, 0x33#8, 0x54#8, 0x51#8, 0x4F#8, 0x4A#8, 0x51#8] ++
  [0x47#8, 0x45#8, 0x5A#8, 0x44#8, 0x47#8, 0x4E#8, 0x42#8, 0x56#8, 0x47#8, 0x59#8, 0x33#8, 0x54#8, 0x51#8, 0x4F#8, 0x4A#8, 0x51#8]

/-- `ASCII("12345!@#")` (E7). -/
def badSecret : List Byte := [0x31#8, 0x32#8, 0x33#8, 0x34#8, 0x35#8, 0x21#8, 0x40#8, 0x23#8]

/-- Reset with a key of given bytes in KEYBUF. -/
def withKey (k : List Byte) : State :=
  { State.reset with mem := Memory.writeBytes [] 0x100 k, keyLen := BitVec.ofNat 16 k.length, keyvalid := true }

/-- Reset with a secret of given bytes in SECBUF. -/
def withSecret (x : List Byte) : State :=
  { State.reset with mem := Memory.writeBytes [] 0x200 x, secLen := BitVec.ofNat 16 x.length }

/-- Reset with bytes at the start of BLK. -/
def withBlock (x : List Byte) : State := { State.reset with mem := Memory.writeBytes [] 0x080 x }

/-- Reset with an accepted command word. -/
def running (w : Word) : State := accept State.reset w

/-! ### Well-formedness: an ill-formed term for the one check (R84: the rows' words are not ILLEGAL) -/

theorem test_wf_refuses_illegal_nop : ¬ (Instr.illegal 0x00000000#32).WellFormed := by decide
theorem test_wf_refuses_illegal_shaFinal : ¬ (Instr.illegal 0x00003F03#32).WellFormed := by decide
theorem test_wf_refuses_illegal_totpSecret : ¬ (Instr.illegal 0x00000043#32).WellFormed := by decide
theorem test_wf_accepts_reserved_bit : (Instr.illegal 0x00004003#32).WellFormed := by decide

/-! ### Decoding: RSV[31:14], ARG[13:8], OP[7:0] written out bit by bit (R80, R83) -/

theorem test_decode_nop : decodeCmd 0b00000000000000000000000000000000#32 = .nop := by decide
theorem test_decode_shaInit : decodeCmd 0b00000000000000000000000000000001#32 = .shaInit := by decide
theorem test_decode_shaUpdate : decodeCmd 0b00000000000000000000000000000010#32 = .shaUpdate := by decide
theorem test_decode_shaFinal_0 : decodeCmd 0b00000000000000000000000000000011#32 = .shaFinal 0#6 := by decide
theorem test_decode_shaFinal_34 : decodeCmd 0b00000000000000000010001000000011#32 = .shaFinal 34#6 := by decide
theorem test_decode_b32Decode : decodeCmd 0b00000000000000000000000000010000#32 = .b32Decode := by decide
theorem test_decode_hmac : decodeCmd 0b00000000000000000000000000100000#32 = .hmac := by decide
theorem test_decode_trunc : decodeCmd 0b00000000000000000000000000110000#32 = .trunc := by decide
theorem test_decode_ctrTime : decodeCmd 0b00000000000000000000000001000000#32 = .ctrTime := by decide
theorem test_decode_hotp : decodeCmd 0b00000000000000000000000001000001#32 = .hotp := by decide
theorem test_decode_totp : decodeCmd 0b00000000000000000000000001000010#32 = .totp := by decide
theorem test_decode_totpSecret : decodeCmd 0b00000000000000000000000001000011#32 = .totpSecret := by decide
/-- A reserved bit (R82), an ARG on TRUNC and an unused OP (L2.8). -/
theorem test_decode_illegal :
    decodeCmd 0x00004003#32 = .illegal 0x00004003#32 ∧ decodeCmd 0x80000001#32 = .illegal 0x80000001#32 ∧
    decodeCmd 0x00000130#32 = .illegal 0x00000130#32 ∧ decodeCmd 0x00000004#32 = .illegal 0x00000004#32 := by decide
/-- CTRL data: bits [31:1] are ignored (R25). -/
theorem test_decode_srst :
    decode ⟨.ctrl, 0xFFFFFFFF#32⟩ = .ok .srst ∧
    decode ⟨.ctrl, 0xFFFFFFFE#32⟩ = .error (.noSoftReset 0xFFFFFFFE#32) := by decide
theorem test_decodeTableWord :
    decodeTableWord 32 0x00003803 = some (.shaFinal 56#6) ∧ decodeTableWord 8 0x01 = some .srst ∧
    decodeTableWord 32 0x00000001 = some .shaInit := by decide
/-- `SHA_FINAL n` is `0x03 | (n << 8)` (R87); SRST is the data 1 written to CTRL (R202). -/
theorem test_encode :
    encode (.shaFinal 3#6) = ⟨.cmd, 0x00000303#32⟩ ∧ encode .totpSecret = ⟨.cmd, 0x00000043#32⟩ ∧
    encode .srst = ⟨.ctrl, 0x00000001#32⟩ := by decide

/-! ### One step per instruction: an accepted word that completes, from 95_test_vectors.md -/

/-- L2.8: from STATUS = 0x06, NOP leaves STATUS = 0x02 and ERRCODE = 0. -/
theorem test_nop :
    goesTo (exec .nop { State.reset with done := true, err := true, errcode := 4#8 })
      (fun t => statusWord t == 0x02#32 && t.errcode == 0#8) = true := by decide

/-- L2.2: SHA_INIT from any H and LEN gives H = IV and LEN = 0, BLK unchanged. -/
theorem test_shaInit :
    goesTo (exec .shaInit { withBlock [0x61#8] with hash := ⟨1, 2, 3, 4, 5⟩, len := 512#64 })
      (fun t => t.hash == HashState.iv && t.len == 0#64 && t.mem == (withBlock [0x61#8]).mem) = true := by decide

/-- L2.2: the zero block compressed from the IV. -/
theorem test_shaUpdate_zero_block :
    goesTo (exec .shaUpdate State.reset) (fun t =>
      t.hash == ⟨0x92b404e5#32, 0x56588ced#32, 0x6c1acd4e#32, 0xbf053f68#32, 0x09f73a93#32⟩ && t.len == 512#64) = true := by
  decide +kernel

/-- L2.2: LEN wraps to 0. -/
theorem test_shaUpdate_wraps :
    goesTo (exec .shaUpdate { State.reset with len := 0xFFFFFFFFFFFFFE00#64 }) (fun t => t.len == 0#64) = true := by
  decide +kernel

/-- P1: SHA_FINAL 3 with "abc" in BLK. -/
theorem test_shaFinal_abc :
    goesTo (exec (.shaFinal 3#6) (withBlock [0x61#8, 0x62#8, 0x63#8])) (fun t =>
      t.hash == ⟨0xa9993e36#32, 0x4706816a#32, 0xba3e2571#32, 0x7850c26c#32, 0x9cd0d89d#32⟩ && t.len == 24#64 &&
      t.mem == [(0x080, 0x61#8), (0x081, 0x62#8), (0x082, 0x63#8), (0x083, 0x80#8), (0x0BF, 0x18#8)]) = true := by
  decide +kernel

/-- L2.2: "a" × 56 needs two final blocks; BLK is left holding 15 zero words and 0x000001c0. -/
theorem test_shaFinal_two_blocks :
    goesTo (exec (.shaFinal 56#6) (withBlock (List.replicate 56 0x61#8))) (fun t =>
      t.hash == ⟨0xc2db330f#32, 0x6083854c#32, 0x99d4b5bf#32, 0xb6e8f29f#32, 0x201be699#32⟩ && t.len == 448#64 &&
      t.mem == [(0x0BE, 0x01#8), (0x0BF, 0xC0#8)]) = true := by
  decide +kernel

/-- E3: KEYBUF[0..20) = K20 and KEY_LEN = 20. -/
theorem test_b32Decode_k20 :
    goesTo (exec .b32Decode (withSecret k20Secret)) (fun t =>
      t.keyLen == 20#16 && t.keyvalid && t.mem.readBytes 0x100 21 == k20 ++ [0#8] && t.errcode == 0#8) = true := by
  decide +kernel

/-- E7: "12345!@#" fails at index 0, byte 0x31, and there is no key afterwards. -/
theorem test_b32Decode_invalid :
    goesTo (exec .b32Decode { withSecret badSecret with keyLen := 20#16, keyvalid := true }) (fun t =>
      t.errcode == 0x02#8 && t.errinfo == 0x310000#24 && t.keyLen == 0#16 && !t.keyvalid && t.err) = true := by
  decide +kernel

/-- L2.3: the empty key and the empty message. -/
theorem test_hmac_empty :
    goesTo (exec .hmac (withKey [])) (fun t =>
      t.hash == ⟨0xfbdb1d1b#32, 0x18aa6c08#32, 0x324b7d64#32, 0xb71fb763#32, 0x70690e1d#32⟩ && t.len == 672#64) = true := by
  decide +kernel

/-- L2.3: KEYVALID = 1, KEY_LEN = 161 and MSG_LEN = 65 give BAD_LENGTH for KEY_LEN. -/
theorem test_hmac_badLength :
    goesTo (exec .hmac { State.reset with keyvalid := true, keyLen := 161#16, msgLen := 65#16 }) (fun t =>
      t.errcode == 0x04#8 && t.errinfo == 0x0200A1#24 && t.hash == HashState.iv) = true := by decide

/-- L2.4: the digest 1f8698690e02ca16618550ef7f19da8e945b555a gives 872921. -/
theorem test_trunc :
    goesTo (exec .trunc { State.reset with
      hash := ⟨0x1f869869#32, 0x0e02ca16#32, 0x618550ef#32, 0x7f19da8e#32, 0x945b555a#32⟩ }) (fun t =>
      t.dbc == 0x50EF7F19#31 && t.code == 872921#20 && codeAscii0 t.ascii == 0x38373239#32 &&
      codeAscii1 t.ascii == 0x32310000#32) = true := by decide

/-- L2.4: the largest offset, the top bit masked. -/
theorem test_trunc_offset_15 :
    goesTo (exec .trunc { State.reset with hash := ⟨0#32, 0#32, 0#32, 0x000000ff#32, 0xffffff0f#32⟩ }) (fun t =>
      t.dbc == 0x7FFFFFFF#31 && t.code == 483647#20) = true := by decide

/-- L2.5: the largest TIME and the largest PERIOD. -/
theorem test_ctrTime :
    goesTo (exec .ctrTime { State.reset with time := 0xFFFFFFFFFFFFFFFF#64, period := 0xFFFFFFFF#32 }) (fun t =>
      t.ctr == 0x0000000100000001#64) = true := by decide

/-- L2.5: PERIOD = 0 is DIV_ZERO and CTR is unchanged. -/
theorem test_ctrTime_divZero :
    goesTo (exec .ctrTime { State.reset with ctr := 7#64, period := 0#32 }) (fun t =>
      t.ctr == 7#64 && t.errcode == 0x05#8 && t.errinfo == 0#24) = true := by decide

/-- L2.6: CTR = 2^64 - 1 gives 094451. -/
theorem test_hotp :
    goesTo (exec .hotp { withKey k20 with ctr := 0xFFFFFFFFFFFFFFFF#64 }) (fun t =>
      t.dbc == 1663094451#31 && t.code == 94451#20 && codeAscii0 t.ascii == 0x30393434#32 && t.msgLen == 8#16) = true := by
  decide +kernel

/-- L2.6: with no key, NO_KEY, MSGBUF[0..8) and MSG_LEN already written. -/
theorem test_hotp_noKey :
    goesTo (exec .hotp { State.reset with ctr := 1#64 }) (fun t =>
      t.errcode == 0x03#8 && t.msgLen == 8#16 && t.mem == [(0x0C7, 0x01#8)]) = true := by decide

/-- P6: TIME = 20000000000 gives 353130. -/
theorem test_totp :
    goesTo (exec .totp { withKey k20 with time := 20000000000#64 }) (fun t =>
      t.ctr == 666666666#64 && t.code == 353130#20 &&
      t.hash == ⟨0xab07e97e#32, 0x2c127876#32, 0x9dbcd757#32, 0x83aabde7#32, 0x5ed8550a#32⟩) = true := by decide +kernel

/-- L2.7: PERIOD = 0 writes nothing. -/
theorem test_totp_divZero :
    goesTo (exec .totp { State.reset with period := 0#32 }) (fun t =>
      t.errcode == 0x05#8 && t.msgLen == 0#16 && t.mem == []) = true := by decide

/-- P2 (E4 as corrected by C1): TIME = 59 gives 287082. -/
theorem test_totpSecret :
    goesTo (exec .totpSecret { withSecret k20Secret with time := 59#64 }) (fun t =>
      t.ctr == 1#64 && t.dbc == 0x41397EEA#31 && t.code == 287082#20 && codeAscii0 t.ascii == 0x32383730#32 &&
      codeAscii1 t.ascii == 0x38320000#32 && t.keyLen == 20#16) = true := by decide +kernel

/-- L2.7: a valid secret with PERIOD = 0 is DIV_ZERO, the decoded key already held. -/
theorem test_totpSecret_divZero :
    goesTo (exec .totpSecret { withSecret k20Secret with period := 0#32 }) (fun t =>
      t.errcode == 0x05#8 && t.keyvalid && t.keyLen == 20#16 && t.ctr == 0#64) = true := by decide +kernel

/-- L2.8: `WR CTRL, 1` while BUSY = 1 gives the reset state. -/
theorem test_srst :
    goesTo (exec .srst { running 0x00000042#32 with time := 59#64 }) (fun t =>
      t.cmd == 0#32 && !t.busy && !t.done && t.time == 0#64 && t.hidden == none) = true := by decide

/-- L2.8: only w[23:0] is recorded. -/
theorem test_illegal :
    goesTo (exec (.illegal 0x80000001#32) State.reset) (fun t =>
      t.errcode == 0x01#8 && t.errinfo == 0x000001#24 && t.err && t.done) = true := by decide

/-! ### Steps -/

/-- A placed command word is the instruction that the very next step runs; a placed CTRL word is SRST. -/
theorem test_withFetchWord :
    step (State.reset.withFetchWord 32 0x00000040) = exec .ctrTime (accept State.reset 0x00000040#32) ∧
    step (State.reset.withFetchWord 8 0x01) = exec .srst (respond State.reset .ok) := ⟨rfl, rfl⟩

/-- L2.8: `WR PERIOD, 60` while BUSY = 1 is dropped and sets OVR. -/
theorem test_write_while_busy :
    goesTo (step ((running 0x00000042#32).facing (writeEvent 0x02C#12 60#32))) (fun t =>
      t.ovr && t.period == 30#32 && t.busy) = true := by decide

/-- L2.8: `WR STATUS, 0x08` clears OVR and leaves DONE. -/
theorem test_status_w1c :
    goesTo (step ({ State.reset with done := true, ovr := true }.facing (writeEvent 0x010#12 8#32))) (fun t =>
      !t.ovr && t.done) = true := by decide

/-- L2.8: `WR KEY_LEN, 0` sets KEYVALID. -/
theorem test_keyLen_sets_keyvalid :
    goesTo (step (State.reset.facing (writeEvent 0x024#12 0#32))) (fun t => t.keyvalid && t.keyLen == 0#16) = true := by
  decide

/-- R65: byte 4j stands in bits [31:24] of word j; the last word of SECBUF is written and read back. -/
theorem test_buffer_word :
    goesTo (step (State.reset.facing (writeEvent 0x2FC#12 0x61626300#32))) (fun t =>
      t.mem == [(0x2FC, 0x61#8), (0x2FD, 0x62#8), (0x2FE, 0x63#8)] &&
      goesTo (step (t.facing (readEvent 0x2FC#12))) (gotData 0x61626300#32)) = true := by decide

/-- R66: TIME_HI is bits [63:32]. -/
theorem test_time_hi :
    goesTo (step (State.reset.facing (writeEvent 0x034#12 4#32))) (fun t => t.time == 0x0000000400000000#64) = true := by
  decide

/-- L2.8: `RD [0x058]` is reserved and reads 0; R23: VERSION reads 0x00070000. -/
theorem test_read_reserved_and_version :
    goesTo (step (State.reset.facing (readEvent 0x058#12))) (gotData 0#32) = true ∧
    goesTo (step (State.reset.facing (readEvent 0x004#12))) (gotData 0x00070000#32) = true := by decide

/-! ### Host programs (R87, R88) -/

/-- A block that runs a command, with an overrun pending under OVR_IE: irq is 1 while BUSY = 1 (R219). -/
def overrunState : State := { running 0x00000043#32 with ovr := true, irqen := 0b101#3 }

/-- R88: WAITIRQ waits for `irq`, not for the completion. -/
theorem test_waitIrq_overrun :
    hostTurn ⟨overrunState, lineOps .waitIrq⟩ = .next ⟨overrunState, [.read 0x010#12]⟩ ∧
    hostTurn ⟨running 0#32, lineOps .waitIrq⟩ = .next ⟨running 0#32, lineOps .waitIrq⟩ := ⟨rfl, rfl⟩

/-- R88: WAIT on an idle block is one read, and on a busy one it goes on. -/
theorem test_wait :
    hostTurn ⟨State.reset, lineOps .wait⟩ = .next ⟨respond State.reset (.data 0#32), []⟩ ∧
    hostTurn ⟨running 0#32, lineOps .wait⟩ = .next ⟨respond (running 0#32) (.data 1#32), lineOps .wait⟩ := ⟨rfl, rfl⟩

/-- P2, P3 and P6: the writes that WRBYTES and SETLEN64 stand for. -/
theorem test_expansions :
    lineOps (.wrBytes 0x200#12 badSecret) = [.write 0x200#12 0x31323334#32, .write 0x204#12 0x35214023#32] ∧
    lineOps (.setLen64 0x030#12 20000000000#64) = [.write 0x030#12 0xA817C800#32, .write 0x034#12 0x00000004#32] ∧
    lineOps (.sha1 [0x61#8, 0x62#8, 0x63#8]) = [.write 0x00C#12 1#32, .pollBusy, .write 0x080#12 0x61626300#32,
      .write 0x00C#12 0x00000303#32, .pollBusy] := by decide

/-! ### Witnesses: concrete states and operands that meet the hypotheses of the obligations -/

/-- A state in which a command runs, with one input left. -/
def busyState : State := { running 0x00000043#32 with events := [.complete] }

/-- A busy state that no run reaches, with every other status bit set. -/
def loudState : State := { State.reset with busy := true, done := true, err := true, ovr := true, errcode := 5#8 }

theorem witness_DecodeEncode :
    Instr.wf .nop = true ∧ Instr.wf .shaInit = true ∧ Instr.wf .shaUpdate = true ∧ Instr.wf (.shaFinal 63#6) = true ∧
    Instr.wf .b32Decode = true ∧ Instr.wf .hmac = true ∧ Instr.wf .trunc = true ∧ Instr.wf .ctrTime = true ∧
    Instr.wf .hotp = true ∧ Instr.wf .totp = true ∧ Instr.wf .totpSecret = true ∧ Instr.wf .srst = true ∧
    Instr.wf (.illegal 0xFFFFFFFF#32) = true := by decide

theorem witness_IllegalWords :
    decodeCmd 0x00004000#32 = .illegal 0x00004000#32 ∧ decodeCmd 0x00000044#32 = .illegal 0x00000044#32 ∧
    decodeCmd 0x00000100#32 = .illegal 0x00000100#32 := by decide

theorem witness_StepRunsAcceptedCommand :
    busyState.busy = true ∧ ((running 0#32).busy = true ∧ (running 0#32).events = []) ∧
    (State.reset.busy = false ∧ State.reset.events = []) := by decide

theorem witness_CtrlWriteRunsSoftReset :
    (0x00000001#32 : Word).getLsbD 0 = true ∧ (0xFFFFFFFE#32 : Word).getLsbD 0 = false := by decide

theorem witness_CmdWriteAccepts : State.reset.busy = false ∧ busyState.busy = true := by decide
theorem witness_CompletionStatus : busyState.busy = true ∧ loudState.busy = true := by decide
theorem witness_CommandCompletes : busyState.busy = true := by decide

/-- A busy state of the invariant, and its step. -/
theorem witness_StepKeepsInv : State.Inv (running 0x00000043#32) ∧ ∃ t, step (running 0x00000043#32) = .next t :=
  ⟨⟨by decide, by decide, by decide, by decide, by decide, by decide, by decide, by decide, by decide⟩, _, rfl⟩

/-- NOP meets the guard of every clause; the ranges of memory are met at their ends. -/
theorem witness_WritersOfEachRegister :
    (withKey k20).mem.wf = true ∧
    (∃ t, exec .nop (withKey k20) = .next t) ∧ (Instr.nop ≠ .srst ∧ (∀ n, Instr.nop ≠ .shaFinal n) ∧
      Instr.nop ∉ [Instr.b32Decode, .shaInit, .shaUpdate, .hmac, .trunc, .ctrTime, .hotp, .totp, .totpSecret]) ∧
    (0x0C8 ≤ 0x0C8 ∧ 0x0FF < 0x100 ∧ 0x100 ≤ 0x100 ∧ 0x19F < 0x1A0 ∧ 0x200 ≤ 0x200) := by
  refine ⟨by decide, ⟨_, rfl⟩, ⟨by decide, ?_, by decide⟩, by decide, by decide⟩
  intro n h
  cases h

/-- A dropped write, which is no soft reset, and a soft reset. -/
theorem witness_BusyProtectsOperands :
    busyState.busy = true ∧ writeEvent 0x02C#12 60#32 ≠ .complete ∧ writeEvent 0x02C#12 60#32 ≠ .hardReset ∧
    (∃ t, step (busyState.facing (writeEvent 0x02C#12 60#32)) = .next t) ∧
    (¬ ∃ v : Word, v.getLsbD 0 = true ∧ (writeEvent 0x02C#12 60#32 = writeEvent 0x008#12 v ∨
      writeEvent 0x02C#12 60#32 = .mem ⟨Config.base + 0x008, 4, .write v⟩)) ∧
    writeEvent 0x008#12 1#32 ≠ .complete ∧ writeEvent 0x008#12 1#32 ≠ .hardReset ∧
    (∃ t, step (busyState.facing (writeEvent 0x008#12 1#32)) = .next t) ∧
    (∃ v : Word, v.getLsbD 0 = true ∧ (writeEvent 0x008#12 1#32 = writeEvent 0x008#12 v ∨
      writeEvent 0x008#12 1#32 = .mem ⟨Config.base + 0x008, 4, .write v⟩)) := by
  refine ⟨by decide, by decide, by decide, ⟨_, rfl⟩, ?_, by decide, by decide, ⟨_, rfl⟩, 1#32, by decide, .inl rfl⟩
  rintro ⟨v, -, h | h⟩ <;> simp [writeEvent] at h

theorem witness_HiddenIsInvisible :
    ∃ t u, step (busyState.facing (readEvent 0x060#12)) = .next t ∧
      step { busyState.facing (readEvent 0x060#12) with hidden := none } = .next u := ⟨_, _, rfl, rfl⟩

theorem witness_ResetCancelsCommand :
    busyState.busy = true ∧ ∃ v : Word, v.getLsbD 0 = true ∧ writeEvent 0x008#12 1#32 = writeEvent 0x008#12 v :=
  ⟨by decide, 1#32, by decide, rfl⟩

/-- Each clause at the ends of its ranges; the last clause at a read-only, a reserved and the last offset. -/
theorem witness_BusyWrites :
    busyState.busy = true ∧ (0x00000001#32 : Word).getLsbD 0 = true ∧ (0x00000002#32 : Word).getLsbD 0 = false ∧
    (∀ o ∈ [0x00C, 0x020, 0x044, 0x060, 0x070, 0x080, 0x19C, 0x200, 0x2FC], o % 4 = 0 ∧ rwOffset o) ∧
    (∀ o ∈ [0x000, 0x004, 0x018, 0x01C, 0x048, 0x05C, 0x074, 0x07C, 0x1A0, 0x1FC, 0x300, 0xFFC],
      o % 4 = 0 ∧ ¬ rwOffset o ∧ o ∉ [0x008, 0x010, 0x014]) ∧
    (∀ o ∈ [0x008, 0x010, 0x014], ¬ rwOffset o) := by
  unfold rwOffset
  exact ⟨by decide, by decide, by decide, by decide, by decide, by decide⟩

/-- Each range of R70 at its ends; no listed offset is among the reserved ones or above 0x020. -/
theorem witness_BusyReads :
    busyState.busy = true ∧
    (∀ o ∈ [0x058, 0x05C, 0x074, 0x07C, 0x1A0, 0x1FC, 0x300, 0xFFC], o % 4 = 0 ∧ reservedOffset o) ∧
    (∀ o ∈ [0x020, 0x054, 0x060, 0x070, 0x080, 0x19C, 0x200, 0x2FC], o % 4 = 0 ∧ 0x020 ≤ o ∧ ¬ reservedOffset o) ∧
    (∀ o ∈ [0x000, 0x004, 0x008, 0x00C, 0x010, 0x014, 0x018, 0x01C], ¬ 0x020 ≤ o ∧ ¬ reservedOffset o) := by
  unfold reservedOffset
  exact ⟨by decide, by decide, by decide, by decide⟩

theorem witness_ReadsChangeNothing : (0xFFC#12 : BitVec 12).toNat % 4 = 0 ∧ State.reset.busy = false := by decide

/-- The two buffer ranges of IdleReads at their ends. -/
theorem witness_IdleReads :
    State.reset.busy = false ∧ ∀ o ∈ [0x080#12, 0x19C#12, 0x200#12, 0x2FC#12], (o : BitVec 12).toNat % 4 = 0 ∧
      ((0x080 ≤ o.toNat ∧ o.toNat < 0x1A0) ∨ (0x200 ≤ o.toNat ∧ o.toNat < 0x300)) := by decide

theorem witness_ReadOnlyWritesIgnored :
    0x054#12 ∈ [0x000#12, 0x004#12, 0x018#12, 0x01C#12, 0x048#12, 0x04C#12, 0x050#12, 0x054#12] := by decide

theorem witness_ReservedOffsets :
    ((0x058#12 : BitVec 12).toNat % 4 = 0 ∧ reservedOffset (0x058#12 : BitVec 12).toNat) ∧
    ((0xFFC#12 : BitVec 12).toNat % 4 = 0 ∧ reservedOffset (0xFFC#12 : BitVec 12).toNat) := by
  unfold reservedOffset; decide

/-- L2.8: the misaligned write to 0x002, and a byte write to 0x010. -/
theorem witness_RefusedAccess : (0x002#12 : BitVec 12).toNat % 4 ≠ 0 ∧ (1 : Nat) ≠ 4 := by decide

theorem witness_WindowAtBase : Config.base + 4096 ≤ Config.base + 4096 := Nat.le_refl _

theorem witness_WriteReadsBack :
    State.reset.busy = false ∧ State.reset.mem.wf = true ∧
    ((0x020#12 : BitVec 12).toNat % 4 = 0 ∧ rwOffset (0x020#12 : BitVec 12).toNat ∧ (0x020#12 : BitVec 12) ≠ 0x00C#12) ∧
    ((0x024#12 : BitVec 12).toNat % 4 = 0 ∧ rwOffset (0x024#12 : BitVec 12).toNat ∧ (0x024#12 : BitVec 12) ≠ 0x00C#12) ∧
    ((0x2FC#12 : BitVec 12).toNat % 4 = 0 ∧ rwOffset (0x2FC#12 : BitVec 12).toNat ∧ (0x2FC#12 : BitVec 12) ≠ 0x00C#12) := by
  unfold rwOffset; decide

theorem witness_block_of_64 : (List.replicate 64 0x61#8).length = 64 := by decide
theorem witness_FinalPadding : (List.replicate 55 0x61#8).length ≤ 63 ∧ (List.replicate 63 0x61#8).length ≤ 63 := by decide

/-- L2.1: "MZXW6===" decodes to "foo". -/
theorem witness_decoded :
    (∀ c ∈ stripPad [0x4D#8, 0x5A#8, 0x58#8, 0x57#8, 0x36#8, 0x3D#8, 0x3D#8, 0x3D#8],
      (0x41 ≤ c.toNat ∧ c.toNat ≤ 0x5A) ∨ (0x61 ≤ c.toNat ∧ c.toNat ≤ 0x7A) ∨ (0x32 ≤ c.toNat ∧ c.toNat ≤ 0x37)) ∧
    base32Decode [0x4D#8, 0x5A#8, 0x58#8, 0x57#8, 0x36#8, 0x3D#8, 0x3D#8, 0x3D#8] = .bytes [0x66#8, 0x6F#8, 0x6F#8] := by
  decide

/-- L2.1: the largest input, "7" × 256, gives 160 bytes of 0xFF. -/
theorem witness_decoded_largest :
    (List.replicate 256 0x37#8).length ≤ 256 ∧
    base32Decode (List.replicate 256 0x37#8) = .bytes (List.replicate 160 0xFF#8) := by decide +kernel

/-- The ends of the alphabet's ranges and the bytes beside them (R103: `@`, `[`, a back-quote, an open brace, `1` and `8` are invalid). -/
theorem witness_alphabet_bounds :
    [0x41#8, 0x5A#8, 0x61#8, 0x7A#8, 0x32#8, 0x37#8].map (fun c => alphabetValue (foldCase c)) =
      [some 0, some 25, some 0, some 25, some 26, some 31] ∧
    ∀ c ∈ [0x40#8, 0x5B#8, 0x60#8, 0x7B#8, 0x31#8, 0x38#8], alphabetValue (foldCase c) = none := by decide

/-- L2.1: "AB=C" fails at index 2 with 0x3D, which the strip leaves. -/
theorem witness_FirstInvalidByte :
    0x3D#8 ∈ stripPad [0x41#8, 0x42#8, 0x3D#8, 0x43#8] ∧
    base32Decode [0x41#8, 0x42#8, 0x3D#8, 0x43#8] = .invalid 2 0x3D#8 := by decide

theorem witness_Base32RoundTrip : (List.replicate 160 0xFF#8).length ≤ 160 ∧ ([] : List Byte).length ≤ 160 := by simp

/-- The canonical memory that SHA_FINAL and HashSequenceIsSha1 start from; the ARGs where the clauses of SHA_FINAL meet. -/
theorem witness_ShaFinalResult :
    (withBlock [0x61#8]).mem.wf = true ∧ (55#6 : BitVec 6).toNat ≤ 55 ∧ ¬ (56#6 : BitVec 6).toNat ≤ 55 := by decide

theorem witness_B32DecodeResult :
    (withSecret k20Secret).mem.wf = true ∧ (withSecret k20Secret).secLen.toNat ≤ 256 ∧
    base32Decode ((withSecret k20Secret).mem.readBytes 0x200 (withSecret k20Secret).secLen.toNat) = .bytes k20 := by
  decide +kernel

theorem witness_B32DecodeErrors :
    256 < ({ State.reset with secLen := 257#16 } : State).secLen.toNat ∧
    (withSecret badSecret).mem.wf = true ∧ (withSecret badSecret).secLen.toNat ≤ 256 ∧
    base32Decode ((withSecret badSecret).mem.readBytes 0x200 (withSecret badSecret).secLen.toNat) = .invalid 0 0x31#8 := by
  decide +kernel

/-- The largest key and the largest message, and the empty ones (also HmacIsOuterHashAsCommands, HotpResult). -/
theorem witness_HmacResult :
    (withKey []).mem.wf = true ∧ (withKey []).keyvalid = true ∧ (withKey []).keyLen.toNat ≤ 160 ∧
    (withKey []).msgLen.toNat ≤ 64 ∧
    (160#16 : BitVec 16).toNat ≤ 160 ∧ (64#16 : BitVec 16).toNat ≤ 64 := by decide

theorem witness_HmacErrors :
    State.reset.keyvalid = false ∧
    (({ withKey [] with keyLen := 161#16 } : State).keyvalid = true ∧
      160 < ({ withKey [] with keyLen := 161#16 } : State).keyLen.toNat) ∧
    (({ withKey [] with msgLen := 65#16 } : State).keyvalid = true ∧
      ({ withKey [] with msgLen := 65#16 } : State).keyLen.toNat ≤ 160 ∧
      64 < ({ withKey [] with msgLen := 65#16 } : State).msgLen.toNat) := by decide

theorem witness_CtrTimeResult :
    State.reset.period ≠ 0#32 ∧ ({ State.reset with period := 0#32 } : State).period = 0#32 := by decide

/-- Each premise of CompositeSequencing has its next state. -/
theorem witness_CompositeSequencing (s : State) :
    (∃ t, exec .ctrTime s = .next t) ∧ (∃ t, exec .b32Decode s = .next t) ∧ (∃ t, exec .hmac s = .next t) :=
  ⟨⟨_, rfl⟩, ⟨_, rfl⟩, ⟨_, rfl⟩⟩

theorem witness_TotpResult :
    (withKey k20).mem.wf = true ∧ (withKey k20).period ≠ 0#32 ∧ (withKey k20).keyvalid = true ∧
    (withKey k20).keyLen.toNat ≤ 160 := by decide

theorem witness_TotpSecretResult :
    (withSecret k20Secret).period ≠ 0#32 ∧ (withSecret k20Secret).secLen.toNat ≤ 256 ∧
    (withSecret k20Secret).mem.wf = true ∧
    base32Decode ((withSecret k20Secret).mem.readBytes 0x200 (withSecret k20Secret).secLen.toNat) = .bytes k20 := by
  decide +kernel

/-- R179's window of E4: 30 to 59 with PERIOD = 30, both ends. -/
theorem witness_WindowStability :
    State.reset.period ≠ 0#32 ∧
    1 * State.reset.period.toNat ≤ (30#64 : BitVec 64).toNat ∧
    (30#64 : BitVec 64).toNat < (1 + 1) * State.reset.period.toNat ∧
    1 * State.reset.period.toNat ≤ (59#64 : BitVec 64).toNat ∧
    (59#64 : BitVec 64).toNat < (1 + 1) * State.reset.period.toNat := by decide

/-- Two states that hold the same secret and differ elsewhere. -/
theorem witness_TotpSecretDeterminism :
    let s := withSecret k20Secret
    let t := { withSecret k20Secret with hash := ⟨1, 2, 3, 4, 5⟩, keyvalid := true, keyLen := 7#16 }
    s.mem.wf = true ∧ t.mem.wf = true ∧ s.secLen = t.secLen ∧ secretOf s = secretOf t ∧ s.time = t.time ∧
      s.period = t.period ∧ s ≠ t := by decide +kernel

/-- Each error code of R211 is raised by some command. -/
theorem witness_ErrorCauses :
    goesTo (exec (.illegal 4#32) State.reset) (fun t => t.errcode == 0x01#8) = true ∧
    goesTo (exec .totpSecret (withSecret badSecret)) (fun t => t.errcode == 0x02#8) = true ∧
    goesTo (exec .totp State.reset) (fun t => t.errcode == 0x03#8) = true ∧
    goesTo (exec .totpSecret { State.reset with secLen := 257#16 }) (fun t => t.errcode == 0x04#8) = true ∧
    goesTo (exec .totpSecret { State.reset with period := 0#32 }) (fun t => t.errcode == 0x05#8) = true := by
  decide +kernel

end Sys2Proof.Tests
end

section
/-! PROOFS of the scope rules (00_scope.md): the big-endian conversions of R10 as weighted sums of bytes. -/

namespace Sys2Proof.Machine

/-- Concatenation puts its first part above the `n` bits of its second. -/
theorem toNat_append_eq_mul_add {m n : Nat} (x : BitVec m) (y : BitVec n) :
    (x ++ y).toNat = x.toNat * 2 ^ n + y.toNat := by
  rw [BitVec.toNat_append, ← Nat.shiftLeft_add_eq_or_of_lt y.isLt, Nat.shiftLeft_eq]

/-- `BE32` weighs its bytes by the powers of 256, the first by the highest. -/
theorem toNat_be32 (b0 b1 b2 b3 : Byte) :
    (be32 b0 b1 b2 b3).toNat = b0.toNat * 2 ^ 24 + b1.toNat * 2 ^ 16 + b2.toNat * 2 ^ 8 + b3.toNat := by
  simp only [be32, toNat_append_eq_mul_add]
  omega

/-- The bytes of a word are the ones whose `BE32` is the word. -/
theorem exists_bytesBE32_eq_and_be32_eq (w : Word) :
    ∃ b0 b1 b2 b3, bytesBE32 w = [b0, b1, b2, b3] ∧ be32 b0 b1 b2 b3 = w :=
  ⟨_, _, _, _, rfl, Memory.be32_bytes w⟩

/-- A 64-bit value weighs its two register halves (R66). -/
theorem toNat_eq_hiHalf_mul_add_loHalf (x : BitVec 64) :
    x.toNat = (hiHalf x).toNat * 2 ^ 32 + (loHalf x).toNat := by
  simp only [hiHalf, loHalf, BitVec.extractLsb'_toNat, Nat.shiftRight_eq_div_pow]
  omega

/-- The bytes of a 64-bit value are those of its high half, then those of its low half. -/
theorem exists_bytesBE64_eq_and_toNat_eq (x : BitVec 64) :
    ∃ b0 b1 b2 b3 b4 b5 b6 b7 : Byte, bytesBE64 x = [b0, b1, b2, b3, b4, b5, b6, b7] ∧
      x.toNat = b0.toNat * 2 ^ 56 + b1.toNat * 2 ^ 48 + b2.toNat * 2 ^ 40 + b3.toNat * 2 ^ 32 +
        b4.toNat * 2 ^ 24 + b5.toNat * 2 ^ 16 + b6.toNat * 2 ^ 8 + b7.toNat := by
  obtain ⟨b0, b1, b2, b3, hi_bytes, hi_eq⟩ := exists_bytesBE32_eq_and_be32_eq (hiHalf x)
  obtain ⟨b4, b5, b6, b7, lo_bytes, lo_eq⟩ := exists_bytesBE32_eq_and_be32_eq (loHalf x)
  refine ⟨b0, b1, b2, b3, b4, b5, b6, b7, by simp [bytesBE64, hi_bytes, lo_bytes], ?_⟩
  rw [toNat_eq_hiHalf_mul_add_loHalf, ← hi_eq, ← lo_eq, toNat_be32, toNat_be32]
  omega

/-- Settles O31: the weights follow from concatenation, the byte strings from the words they rebuild; eight bytes are
those of the two register halves. -/
theorem bigEndianConversions : Obligations.BigEndianConversions :=
  ⟨toNat_be32, exists_bytesBE32_eq_and_be32_eq, exists_bytesBE64_eq_and_toNat_eq⟩

end Sys2Proof.Machine
end

section
/-! PROOFS of the state family: accept and the read of CMD (R24), ID and VERSION (R22, R23), STATUS (R26, R27), IRQEN and
what it enables onto irq (R28, R219). -/

namespace Sys2Proof.Machine

/-! ### Writes with one effect, idle or busy -/

/-- A write that BUSY does not change (R69): STATUS, IRQEN, and the registers that ignore writes. -/
theorem step_write_of_writeBusy_eq {s : State} {off : BitVec 12} {r : Reg} (v : Word) (h : off.toNat % 4 = 0)
    (hr : regAt off.toNat = r) (hc : r ≠ .ctrl) (hw : writeBusy r v s = writeIdle r v s) :
    step (s.facing (writeEvent off v)) = .next (respond (writeIdle r v s) .ok) := by
  cases hb : s.busy with
  | false => exact step_write_idle v h hr hc hb
  | true => rw [step_write_busy v h hr hc hb, hw]

/-! ### STATUS (R26, R27) -/

/-- Write-1-to-clear, bit by bit: the whole state after it (R27). -/
theorem clearStatus_eq_ite (s : State) (v : Word) :
    clearStatus s v = { s with
      done := if v.getLsbD 1 then false else s.done
      err := if v.getLsbD 2 then false else s.err
      ovr := if v.getLsbD 3 then false else s.ovr } := by
  simp [clearStatus, Bool.and_comm]

/-- Bits 1 to 4 of the STATUS word; bit 0 is `statusWord_bit0` (R26). -/
theorem statusWord_bits (s : State) :
    (statusWord s).getLsbD 1 = s.done ∧ (statusWord s).getLsbD 2 = s.err ∧ (statusWord s).getLsbD 3 = s.ovr ∧
      (statusWord s).getLsbD 4 = s.keyvalid := by
  simp only [statusWord, bit, BitVec.getLsbD_append]
  simp

/-- The reserved bits of the STATUS word are 0 (R26). -/
theorem statusWord_lt (s : State) : (statusWord s).toNat < 2 ^ 5 := by
  have hbit (b : Bool) : (bit b).toNat ≤ 1 := Nat.le_of_lt_succ (bit b).isLt
  have hk := hbit s.keyvalid
  have ho := hbit s.ovr
  have he := hbit s.err
  have hd := hbit s.done
  have hb := hbit s.busy
  simp only [statusWord, toNat_append_eq_mul_add, BitVec.toNat_ofNat]
  omega

/-! ### IRQEN and irq (R28, R219) -/

/-- After an IRQEN write the data's bits [3:1] gate DONE, ERR and OVR onto irq (R28, R219). -/
theorem irq_setIrqen (s : State) (v : Word) :
    irq (setIrqen s v) = ((v.getLsbD 1 && s.done) || (v.getLsbD 2 && s.err) || (v.getLsbD 3 && s.ovr)) := by
  simp [irq, setIrqen, Bool.and_comm]

/-- IRQEN reads back the data's bits [3:1], the reserved bits being 0 (R28). -/
theorem irqenWord_setIrqen (s : State) (v : Word) : irqenWord (setIrqen s v) = v &&& 0xE#32 := by
  have mask : ∀ i < 32, (0xE#32).getLsbD i = decide (0 < i ∧ i - 1 < 3) := by decide
  apply BitVec.eq_of_getLsbD_eq
  intro i hi
  rw [BitVec.getLsbD_and, mask i hi]
  simp only [irqenWord, setIrqen, BitVec.getLsbD_append, BitVec.getLsbD_extractLsb']
  cases i with
  | zero => simp
  | succ j => by_cases stored : j < 3 <;> simp [stored, Nat.add_comm 1 j]

/-! ### The obligations -/

/-- Settles O7: while idle the write is `accept`, while busy it is `overrun`; CMD's read is defined at any time. -/
theorem cmdWriteAccepts : Obligations.CmdWriteAccepts := by
  refine ⟨fun s w => ⟨fun idle => ?_, fun busy => ?_, ?_⟩, rfl⟩
  · exact ⟨respond (accept s w) .ok, step_write_idle w (by decide) rfl nofun idle, rfl⟩
  · exact step_write_busy w (by decide) rfl nofun busy
  · exact step_read_defined (by decide) rfl (.inr rfl)

/-- Settles O19: both reads are defined at any time, and a write leaves the state as it is, idle or busy. -/
theorem idAndVersion : Obligations.IdAndVersion := by
  refine ⟨by decide, fun s => ⟨?_, ?_, fun v => ⟨?_, ?_⟩⟩⟩
  · exact step_read_defined (by decide) rfl (.inr rfl)
  · exact step_read_defined (by decide) rfl (.inr rfl)
  · exact step_write_of_writeBusy_eq v (by decide) rfl nofun rfl
  · exact step_write_of_writeBusy_eq v (by decide) rfl nofun rfl

/-- Settles O20: the write is `clearStatus`, idle or busy, and the read shows the STATUS word. -/
theorem statusRegister : Obligations.StatusRegister := by
  refine ⟨fun s v => ?_, fun s => ⟨statusWord s, step_read_defined (by decide) rfl (.inr rfl), ?_⟩⟩
  · have write : step (s.facing (writeEvent 0x010#12 v)) = .next (respond (clearStatus s v) .ok) :=
      step_write_of_writeBusy_eq v (by decide) rfl nofun rfl
    rw [write, clearStatus_eq_ite]
    rfl
  · obtain ⟨done, err, ovr, keyvalid⟩ := statusWord_bits s
    exact ⟨statusWord_bit0 s, done, err, ovr, keyvalid, statusWord_lt s⟩

/-- Settles O21: the write is `setIrqen`, idle or busy; its effect on irq and its readback are read off the stored bits. -/
theorem interruptEnables : Obligations.InterruptEnables := by
  refine ⟨fun s v => ⟨respond (setIrqen s v) .ok, ?_, rfl, irq_setIrqen s v, ?_⟩, rfl⟩
  · exact step_write_of_writeBusy_eq v (by decide) rfl nofun rfl
  · rw [← irqenWord_setIrqen s v]
    exact step_read_defined (by decide) rfl (.inr rfl)

end Sys2Proof.Machine
end


section
/-! PROOFS of the memory family: accesses of another size or at a misaligned offset (R62, R63). -/

namespace Sys2Proof.Machine

/-- The block supports neither another size nor a misaligned offset (R62). -/
theorem supported_eq_false_iff {off size : Nat} : supported off size = false ↔ size ≠ 4 ∨ off % 4 ≠ 0 := by
  simp [supported, imp_iff_not_or]

/-- A transaction that is not supported is answered by its error response, idle or busy, and changes nothing else (R63). -/
theorem access_refused {off size : Nat} (op : BusOp) (s : State) (h : supported off size = false) :
    access off size op s = .next (respond s (refusedResponse op)) := by
  unfold access
  rw [if_neg (by simp [h])]

/-- The step that takes a bus transaction is the access at its offset. -/
theorem step_bus (s : State) (off : BitVec 12) (size : Nat) (op : BusOp) :
    step (s.facing (.bus ⟨off, size, op⟩)) = access off.toNat size op s := step_facing s _

/-- Settles O28: such an access is not supported, so a read and a write alike get their error response; its signal is
the platform's BUS_ERROR_SIGNAL. -/
theorem refusedAccess : Obligations.RefusedAccess := by
  intro s off size misfit
  have refused := supported_eq_false_iff.mpr misfit
  refine ⟨⟨Config.busErrorSignal, ?_⟩, fun v => ⟨Config.busErrorSignal, ?_⟩⟩
  · exact (step_bus s off size .read).trans (access_refused .read s refused)
  · exact (step_bus s off size (.write v)).trans (access_refused (.write v) s refused)

end Sys2Proof.Machine
end


section
/-! PROOFS of the encoding family: the illegal words (R82, R84, R85) and their completion (R201). -/

namespace Sys2Proof.Machine

/-! ### The opcode map (R83) -/

/-- The values of OP in the opcode map (R83); every other one is reserved. -/
def opcodeMap : List (BitVec 8) :=
  [0x00#8, 0x01#8, 0x02#8, 0x03#8, 0x10#8, 0x20#8, 0x30#8, 0x40#8, 0x41#8, 0x42#8, 0x43#8]

theorem mem_opcodeMap_of_plainOpcode {i : Instr} {op : BitVec 8} (plain : plainOpcode i = some op) : op ∈ opcodeMap := by
  cases i <;> simp only [plainOpcode, Option.some.injEq, reduceCtorEq] at plain <;> subst plain <;> decide

/-- Beside SHA_FINAL's, the map holds only opcodes of commands without an ARG (R81, R83). -/
theorem exists_plainOpcode_of_mem_opcodeMap {op : BitVec 8} (listed : op ∈ opcodeMap) (notFinal : op ≠ 0x03#8) :
    ∃ i, plainOpcode i = some op := by
  simp only [opcodeMap, List.mem_cons, List.not_mem_nil, or_false] at listed
  rcases listed with rfl | rfl | rfl | rfl | rfl | rfl | rfl | rfl | rfl | rfl | rfl
  · exact ⟨.nop, rfl⟩
  · exact ⟨.shaInit, rfl⟩
  · exact ⟨.shaUpdate, rfl⟩
  · exact absurd rfl notFinal
  · exact ⟨.b32Decode, rfl⟩
  · exact ⟨.hmac, rfl⟩
  · exact ⟨.trunc, rfl⟩
  · exact ⟨.ctrTime, rfl⟩
  · exact ⟨.hotp, rfl⟩
  · exact ⟨.totp, rfl⟩
  · exact ⟨.totpSecret, rfl⟩

/-! ### The obligation -/

/-- The decoder's three causes of ILLEGAL (R82, R84). -/
theorem decodeCmd_eq_illegal_iff (w : Word) :
    decodeCmd w = .illegal w ↔
      rsvField w ≠ 0#18 ∨ opField w ∉ opcodeMap ∨ (argField w ≠ 0#6 ∧ opField w ≠ 0x03#8) := by
  rcases decodeCmd_cases w with ⟨i, op, plain, decoded, rfl⟩ | ⟨n, decoded, rfl⟩ | ⟨decoded, cause⟩
  · have listed := mem_opcodeMap_of_plainOpcode plain
    have legal : i ≠ .illegal (cmdWord op 0#6) := by
      rintro rfl
      cases plain
    simp [decoded, legal, listed]
  · have listed : 0x03#8 ∈ opcodeMap := by decide
    simp [decoded, listed]
  · refine iff_of_true decoded (cause.imp_right fun ⟨noPlain, notFinal⟩ => ?_)
    by_cases listed : opField w ∈ opcodeMap
    · obtain ⟨i, plain⟩ := exists_plainOpcode_of_mem_opcodeMap listed notFinal
      exact .inr ⟨noPlain i _ plain rfl, notFinal⟩
    · exact .inl listed

/-- An illegal word's completion is the error and nothing else (R85, R201). -/
theorem exec_illegal (w : Word) (s : State) : exec (.illegal w) s = .next (s.failed 0x01#8 (w.extractLsb' 0 24)) := rfl

/-- Settles O4: the decoder's causes of ILLEGAL are the statement's, and the decoded instruction runs R201. -/
theorem illegalWords : Obligations.IllegalWords := by
  refine fun w => ⟨decodeCmd_eq_illegal_iff w, fun decoded s => ?_⟩
  rw [decoded]
  exact exec_illegal w s

end Sys2Proof.Machine
end


section
/-! PROOFS of the Base32 family: the padding strip (R101) and what the scan does with a byte it leaves (R103, R106). -/

namespace Sys2Proof.Machine

/-! ### The strip (R101) -/

/-- The strip is the library's drop from the right. -/
theorem stripPad_eq_rdropWhile (s : List Byte) : stripPad s = s.rdropWhile (· == 0x3D#8) := rfl

/-- The strip removes nothing but `=` bytes, and only from the end. -/
theorem exists_eq_stripPad_append_replicate (s : List Byte) : ∃ n, s = stripPad s ++ List.replicate n 0x3D#8 := by
  have removed : s.rtakeWhile (· == 0x3D#8) = List.replicate (s.rtakeWhile (· == 0x3D#8)).length 0x3D#8 :=
    List.eq_replicate_of_mem fun _ mem => beq_iff_eq.mp (List.mem_rtakeWhile_imp (p := (· == 0x3D#8)) mem)
  refine ⟨(s.rtakeWhile (· == 0x3D#8)).length, ?_⟩
  rw [← removed, stripPad_eq_rdropWhile, List.rdropWhile_append_rtakeWhile]

/-- No `=` stands at the end of a stripped secret. -/
theorem getLast?_stripPad_ne (s : List Byte) : (stripPad s).getLast? ≠ some 0x3D#8 := by
  intro ends
  obtain ⟨nonempty, last⟩ := List.mem_getLast?_eq_getLast ends
  exact List.rdropWhile_last_not _ s nonempty (beq_iff_eq.mpr last.symm)

/-- Stripping twice strips once. -/
@[simp] theorem stripPad_stripPad (s : List Byte) : stripPad (stripPad s) = stripPad s :=
  List.rdropWhile_idempotent _ s

/-- The decoder reads only the stripped secret. -/
theorem base32Decode_stripPad (s : List Byte) : base32Decode (stripPad s) = base32Decode s := by
  rw [base32Decode, stripPad_stripPad, base32Decode]

/-! ### The scan (R103, R106) -/

/-- At a character of the alphabet the scan goes on, with some bits pending and some bytes put out. -/
theorem exists_scan_cons_eq_scan {c : Byte} {v : Nat} (rest : List Byte) (valid : alphabetValue (foldCase c) = some v)
    (i acc nbits : Nat) (k : List Byte) :
    ∃ acc' nbits' k', scan (c :: rest) i acc nbits k = scan rest (i + 1) acc' nbits' k' := by
  by_cases few : nbits < 3
  · exact ⟨_, _, _, scan_keep valid few i acc k⟩
  · exact ⟨_, _, _, scan_emit valid (by omega) i acc k⟩

/-- A scan of a string with a byte outside the alphabet fails. -/
theorem exists_scan_eq_invalid_of_mem {s : List Byte} {c : Byte} (outside : alphabetValue (foldCase c) = none)
    (mem : c ∈ s) (i acc nbits : Nat) (k : List Byte) : ∃ j d, scan s i acc nbits k = .invalid j d := by
  induction s generalizing i acc nbits k with
  | nil => cases mem
  | cons d rest ih =>
    cases value : alphabetValue (foldCase d) with
    | none => exact ⟨i, d, scan_invalid value i acc nbits k⟩
    | some v =>
      have later : c ∈ rest := (List.mem_cons.mp mem).resolve_left fun same => by simp [same, value] at outside
      obtain ⟨acc', nbits', k', goesOn⟩ := exists_scan_cons_eq_scan rest value i acc nbits k
      rw [goesOn]
      exact ih later (i + 1) acc' nbits' k'

/-- `=` is in no row of the alphabet (R103). -/
theorem alphabetValue_foldCase_pad : alphabetValue (foldCase 0x3D#8) = none := by decide

/-! ### The obligation -/

/-- Settles O36: the strip is a drop of `=` from the right and idempotent, and the scan fails on a `=` that
is left. -/
theorem paddingStrip : Obligations.PaddingStrip := fun s =>
  ⟨exists_eq_stripPad_append_replicate s, getLast?_stripPad_ne s, (base32Decode_stripPad s).symm,
    fun left => exists_scan_eq_invalid_of_mem alphabetValue_foldCase_pad left 0 0 0 []⟩

end Sys2Proof.Machine
end


section
/-! PROOFS of the SHA-1 family: the message schedule (R122), the final padding (R125), the known answers (R146), and the
commands SHA_INIT (R140), SHA_UPDATE (R141) and SHA_FINAL n (R142). -/

namespace Sys2Proof.Machine

/-! ### The message schedule (R122) -/

/-- The model's rotation is the library's, for an amount below the width (R11). -/
theorem rotl_eq_rotateLeft {n : Nat} (h : n < 32) (x : Word) : rotl n x = x.rotateLeft n := by
  rw [rotl, BitVec.rotateLeft_def, Nat.mod_eq_of_lt h]

/-- The word that the recurrence puts after the words `ws`, the latest of them first (R122). -/
def nextWord (ws : List Word) : Word :=
  rotl 1 (ws.getD 2 0 ^^^ ws.getD 7 0 ^^^ ws.getD 13 0 ^^^ ws.getD 15 0)

theorem extendSchedule_succ (n : Nat) (ws : List Word) :
    extendSchedule (n + 1) ws = extendSchedule n (nextWord ws :: ws) := rfl

/-- Each word that `extendSchedule` adds is the next word of the words before it. -/
theorem getD_extendSchedule {n i : Nat} (added : i < n) (ws : List Word) :
    (extendSchedule n ws).getD i 0 = nextWord ((extendSchedule n ws).drop (i + 1)) := by
  induction n generalizing ws with
  | zero => exact absurd added (Nat.not_lt_zero i)
  | succ n ih =>
    rw [extendSchedule_succ]
    rcases Nat.lt_succ_iff_lt_or_eq.mp added with later | rfl
    · exact ih later _
    · obtain ⟨pre, extended, rfl⟩ := extendSchedule_suffix i (nextWord ws :: ws)
      rw [extended]
      simp

/-- The schedule begins with the words of the block. -/
theorem exists_schedule_eq_wordsOf_append (block : List Byte) : ∃ later, schedule block = wordsOf block ++ later := by
  obtain ⟨pre, extended, -⟩ := extendSchedule_suffix 64 (wordsOf block).reverse
  exact ⟨pre.reverse, by rw [schedule, extended, List.reverse_append, List.reverse_reverse]⟩

theorem getD_schedule_of_lt {block : List Byte} (h : block.length = 64) {t : Nat} (first : t < 16) :
    (schedule block).getD t 0 =
      be32 (block.getD (4 * t) 0) (block.getD (4 * t + 1) 0) (block.getD (4 * t + 2) 0) (block.getD (4 * t + 3) 0) := by
  obtain ⟨later, split⟩ := exists_schedule_eq_wordsOf_append block
  rw [split, List.getD_append _ _ _ _ (by rw [length_wordsOf, h]; exact first), getD_wordsOf block t (by omega)]

/-- The recurrence, read from the schedule with `W[0]` first. -/
theorem getD_schedule_of_le {block : List Byte} (h : block.length = 64) {t : Nat} (later : 16 ≤ t) (ht : t < 80) :
    (schedule block).getD t 0 =
      rotl 1 ((schedule block).getD (t - 3) 0 ^^^ (schedule block).getD (t - 8) 0 ^^^ (schedule block).getD (t - 14) 0 ^^^
        (schedule block).getD (t - 16) 0) := by
  have len : (extendSchedule 64 (wordsOf block).reverse).length = 80 := by
    rw [← List.length_reverse]
    exact length_schedule h
  have place (k : Nat) (hk : k < 80) :
      (schedule block).getD k 0 = (extendSchedule 64 (wordsOf block).reverse).getD (79 - k) 0 := by
    rw [schedule, List.getD_reverse k (by rw [len]; exact hk), len]
  have before (d : Nat) (hd : 1 ≤ d) (hdt : d ≤ 16) :
      ((extendSchedule 64 (wordsOf block).reverse).drop (79 - t + 1)).getD (d - 1) 0 = (schedule block).getD (t - d) 0 := by
    rw [place (t - d) (by omega), List.getD_eq_getElem?_getD, List.getElem?_drop, ← List.getD_eq_getElem?_getD,
      show 79 - t + 1 + (d - 1) = 79 - (t - d) by omega]
  rw [place t ht, getD_extendSchedule (by omega), nextWord, ← before 3 (by decide) (by decide),
    ← before 8 (by decide) (by decide), ← before 14 (by decide) (by decide), ← before 16 (by decide) (by decide)]

/-- Settles O32: the schedule begins with the block's words, and every later word is the next word of those before it. -/
theorem messageSchedule : Obligations.MessageSchedule := by
  refine fun block h => ⟨length_schedule h, fun t => getD_schedule_of_lt h, fun t later ht => ?_⟩
  rw [← rotl_eq_rotateLeft (by decide)]
  exact getD_schedule_of_le h later ht

/-! ### The final padding (R125) -/

/-- A tail of at most 55 bytes is padded to one block. -/
theorem padFinal_of_le {tail : List Byte} (short : tail.length ≤ 55) (l : BitVec 64) :
    padFinal tail l = [tail ++ [0x80#8] ++ zeros (55 - tail.length) ++ bytesBE64 l] := by
  rw [padFinal_eq (by omega), if_pos short, padBytes, padCount,
    show (119 - tail.length) % 64 = 55 - tail.length by omega]

/-- A tail of 56 to 63 bytes is padded to two blocks: the zero bytes fill the first and the second as far as the length. -/
theorem padFinal_of_gt {tail : List Byte} (long : 55 < tail.length) (h : tail.length ≤ 63) (l : BitVec 64) :
    padFinal tail l = [tail ++ [0x80#8] ++ zeros (63 - tail.length), zeros 56 ++ bytesBE64 l] := by
  have first : (tail ++ [0x80#8] ++ zeros (63 - tail.length)).length = 64 := by
    simp only [List.length_append, List.length_singleton, length_zeros]
    omega
  have zeroBytes : zeros (padCount tail.length) = zeros (63 - tail.length) ++ zeros 56 := by
    rw [padCount, zeros, zeros, zeros, List.replicate_append_replicate,
      show (119 - tail.length) % 64 = 63 - tail.length + 56 by omega]
  have split : padBytes tail l = (tail ++ [0x80#8] ++ zeros (63 - tail.length)) ++ (zeros 56 ++ bytesBE64 l) := by
    rw [padBytes, zeroBytes]
    simp only [List.append_assoc]
  rw [padFinal_eq h, if_neg (by omega), split, List.take_left' first, List.drop_left' first]

/-- The blocks of `PadFinal`, one after the other, are the padded tail. -/
theorem flatten_padFinal (tail : List Byte) (l : BitVec 64) : (padFinal tail l).flatten = padBytes tail l := by
  simp only [padFinal]
  split <;> simp

/-- Settles O34: one block or two by the tail's length, and `padCount` zero bytes in them. -/
theorem finalPadding : Obligations.FinalPadding := by
  refine fun tail l h => ⟨fun b => length_of_mem_padFinal h l, ?_, padCount tail.length, ?_, ?_, flatten_padFinal tail l⟩
  · rw [padFinal_eq h, apply_ite List.length]
    rfl
  · exact Nat.mod_lt _ (by decide)
  · simp only [padCount]
    omega

/-! ### The known answers (R146) -/

theorem sha1State_nil :
    sha1State [] = ⟨0xda39a3ee#32, 0x5e6b4b0d#32, 0x3255bfef#32, 0x95601890#32, 0xafd80709#32⟩ := by decide +kernel

theorem sha1State_abc :
    sha1State [0x61#8, 0x62#8, 0x63#8] =
      ⟨0xa9993e36#32, 0x4706816a#32, 0xba3e2571#32, 0x7850c26c#32, 0x9cd0d89d#32⟩ := by decide +kernel

/-- Settles O35: the chaining state of each string, evaluated, and its bytes. -/
theorem knownAnswers : Obligations.KnownAnswers := by
  constructor
  · rw [sha1, sha1State_nil]
    decide
  · rw [sha1, sha1State_abc]
    decide

/-! ### The commands (R140 to R142) -/

/-- An instruction whose rule raises nothing completes with the status of success (R71). -/
theorem exec_eq_succeeded {i : Instr} {s t : State} (notReset : i ≠ .srst) (rule : ruleOf i s = .succeed t) :
    exec i s = .next t.succeeded := by
  rw [exec_eq_complete notReset, rule]
  rfl

/-- LEN grows modulo 2^64 (R141, R142). -/
theorem toNat_add_ofNat_64 (x : BitVec 64) (k : Nat) : (x + BitVec.ofNat 64 k).toNat = (x.toNat + k) % 2 ^ 64 := by
  rw [BitVec.toNat_add, BitVec.toNat_ofNat, Nat.add_mod_mod]

/-- SHA_FINAL's words: every ARG is a byte count (R81, R84). -/
theorem decodeCmd_cmdWord_shaFinal (n : BitVec 6) : decodeCmd (cmdWord 0x03#8 n) = .shaFinal n := by
  simp [decodeCmd]

/-- SHA_FINAL n leaves one whole block in BLK. -/
theorem length_lastPadded_tailOf (n : BitVec 6) (s : State) : (lastPadded (tailOf s n) (finalLen n s)).length = 64 :=
  length_lastPadded (by rw [length_tailOf]; exact tailCount_le n) _

/-- H and BLK after SHA_FINAL n, by the blocks that `PadFinal` gives (R142). -/
theorem runShaFinal_of_padFinal_eq {n : BitVec 6} {s : State} {blocks : List (List Byte)} (wf : s.mem.wf = true)
    (padded : padFinal (tailOf s n) (finalLen n s) = blocks) :
    (runShaFinal n s).state.hash = compressAll s.hash blocks ∧
      blockOf (runShaFinal n s).state = blocks.getLastD [] := by
  subst padded
  have stored := Memory.readBytes_writeBytes wf blkOff (lastPadded (tailOf s n) (finalLen n s))
  rw [length_lastPadded_tailOf] at stored
  exact ⟨rfl, stored⟩

/-- SHA_FINAL n writes no byte of memory outside BLK (R142). -/
theorem memSameOutside_runShaFinal (n : BitVec 6) {s : State} (wf : s.mem.wf = true) :
    MemSameOutside s (runShaFinal n s).state blkOff 64 := fun x outside =>
  Memory.read_writeBytes_outside wf (by rwa [length_lastPadded_tailOf])

/-- Settles O42: the rule raises nothing, and the words it loads are the IV. -/
theorem shaInitResult : Obligations.ShaInitResult :=
  ⟨by decide, fun _ => exec_eq_succeeded (i := .shaInit) nofun rfl⟩

/-- Settles O43: the rule raises nothing and writes H and LEN. -/
theorem shaUpdateResult : Obligations.ShaUpdateResult :=
  ⟨by decide, fun s => ⟨(runShaUpdate s).state.succeeded, exec_eq_succeeded nofun rfl, rfl, toNat_add_ofNat_64 s.len 512⟩⟩

/-- Settles O44: the rule raises nothing; the blocks it compresses, of which the last stays in BLK, are those of `PadFinal`
for a short tail or a long one. -/
theorem shaFinalResult : Obligations.ShaFinalResult := by
  refine ⟨decodeCmd_cmdWord_shaFinal, fun n s wf => ⟨(runShaFinal n s).state.succeeded, exec_eq_succeeded nofun rfl, rfl,
    toNat_add_ofNat_64 s.len _, ?_, memSameOutside_runShaFinal n wf⟩⟩
  have count : (tailOf s n).length = n.toNat := length_tailOf s n
  intro tail
  split
  case isTrue short =>
    have padded := padFinal_of_le (count.trans_le short) (finalLen n s)
    rw [count] at padded
    exact runShaFinal_of_padFinal_eq wf padded
  case isFalse long =>
    have padded := padFinal_of_gt (by omega) (count.trans_le (tailCount_le n)) (finalLen n s)
    rw [count] at padded
    exact runShaFinal_of_padFinal_eq wf padded

end Sys2Proof.Machine
end


section
/-! PROOFS of the OTP family: CTR_TIME (R170), and TRUNC with its slice of the digest and its decimal digits (R171 to
R173). -/

namespace Sys2Proof.Machine

/-! ### CTR_TIME (R170) -/

/-- The completion of a rule that raised an error and wrote nothing: no error code is 0, so ERR is set (R71, R210). -/
theorem complete_raise (s : State) (e : CmdError) : complete (.raise s e) = s.failed e.code e.info := by
  cases e <;> rfl

/-- An instruction whose rule raises an error and writes nothing completes with the status of that error. -/
theorem exec_eq_failed {i : Instr} {s : State} {e : CmdError} (notReset : i ≠ .srst)
    (rule : ruleOf i s = .raise s e) : exec i s = .next (s.failed e.code e.info) := by
  rw [exec_eq_complete notReset, rule, complete_raise]

/-- The quotient is exact: a quotient of a 64-bit value fits 64 bits. -/
theorem toNat_counterOf (time : BitVec 64) (period : Word) :
    (counterOf time period).toNat = time.toNat / period.toNat := by
  rw [counterOf, BitVec.toNat_ofNat, Nat.mod_eq_of_lt ((Nat.div_le_self _ _).trans_lt time.isLt)]

/-- Settles O51: the rule's two cases, by PERIOD. -/
theorem ctrTimeResult : Obligations.CtrTimeResult := by
  refine ⟨by decide, fun s => ?_⟩
  rcases runCtrTime_cases s with ⟨zero, rule⟩ | ⟨nonzero, rule⟩
  · exact ⟨fun nonzero => absurd zero nonzero, fun _ => exec_eq_failed (i := .ctrTime) nofun rule⟩
  · exact ⟨fun _ => ⟨_, exec_eq_succeeded (i := .ctrTime) nofun rule, rfl, toNat_counterOf s.time s.period⟩,
      fun zero => absurd zero nonzero⟩

/-! ### TRUNC (R171 to R173) -/

/-- The offset is the low nibble of the digest's last byte. -/
theorem truncOffset_eq_mod (d : List Byte) : truncOffset d = (d.getD 19 0).toNat % 16 := by
  rw [truncOffset, BitVec.toNat_and]
  exact Nat.and_two_pow_sub_one_eq_mod _ 4

/-- DBC is the big-endian word at the offset, modulo 2^31 (R171). -/
theorem toNat_truncate (d : List Byte) {off : Nat} (offset : truncOffset d = off) :
    (truncate d).toNat =
      ((d.getD off 0).toNat * 2 ^ 24 + (d.getD (off + 1) 0).toNat * 2 ^ 16 + (d.getD (off + 2) 0).toNat * 2 ^ 8 +
        (d.getD (off + 3) 0).toNat) % 2 ^ 31 := by
  subst offset
  rw [truncate, BitVec.extractLsb'_toNat, Nat.shiftRight_zero, toNat_be32]

/-- CODE holds the whole remainder: 1000000 is below 2^20 (R172). -/
theorem toNat_codeOf (dbc : BitVec 31) : (codeOf dbc).toNat = dbc.toNat % 1000000 := by
  have small : dbc.toNat % 1000000 < 2 ^ 20 := (Nat.mod_lt _ (by decide)).trans (by decide)
  exact (BitVec.toNat_ofNat ..).trans (Nat.mod_eq_of_lt small)

/-- Settles O52: the rule raises nothing and writes the three results, each read as a number. -/
theorem truncResult : Obligations.TruncResult := by
  refine ⟨by decide, fun s => ⟨(truncDone s).succeeded, exec_eq_succeeded nofun (runTrunc_eq s), rfl, ?_, ?_,
    rfl, rfl⟩⟩
  · exact toNat_truncate (digestOf s.hash) (truncOffset_eq_mod _)
  · exact toNat_codeOf (truncate (digestOf s.hash))

end Sys2Proof.Machine
end


section
/-! PROOFS of the exceptions family: which errors each rule can raise, and from what cause (R211). -/

namespace Sys2Proof.Machine

/-! ### The table of raisers and causes (R211) -/

/-- R211's table: the instruction may raise the error, and the state holds the error's cause. -/
def MayRaise (i : Instr) (s : State) : CmdError → Prop
  | .illegalCmd w => i = .illegal w
  | .invalidEncoding j c =>
    i ∈ ([.b32Decode, .totpSecret] : List Instr) ∧ base32Decode (secretOf s) = .invalid j c
  | .noKey => i ∈ ([.hmac, .hotp, .totp, .totpSecret] : List Instr) ∧ s.keyvalid = false
  | .badLength .secLen _ => i ∈ ([.b32Decode, .totpSecret] : List Instr) ∧ 256 < s.secLen.toNat
  | .badLength .keyLen _ => i ∈ ([.hmac, .hotp, .totp] : List Instr) ∧ 160 < s.keyLen.toNat
  | .badLength .msgLen _ => i = .hmac ∧ 64 < s.msgLen.toNat
  | .divZero => i ∈ ([.ctrTime, .totp, .totpSecret] : List Instr) ∧ s.period = 0#32

/-- The errors of a key that HMAC cannot use, KEYVALID or KEY_LEN being their cause (R153). -/
inductive KeyError (s : State) : CmdError → Prop
  | noKey (invalid : s.keyvalid = false) : KeyError s .noKey
  | badLength {v : BitVec 16} (long : 160 < s.keyLen.toNat) : KeyError s (.badLength .keyLen v)

theorem KeyError.mayRaise {i : Instr} {s : State} {e : CmdError} (h : KeyError s e)
    (raiser : i ∈ ([.hmac, .hotp, .totp] : List Instr)) : MayRaise i s e := by
  cases h with
  | noKey invalid => exact ⟨List.subset_append_left _ [Instr.totpSecret] raiser, invalid⟩
  | badLength long => exact ⟨raiser, long⟩

/-- A key that B32_DECODE stored is usable: it is valid, and at most 160 bytes long (R105). -/
theorem not_keyError_storeKey {s : State} {k : List Byte} (short : k.length ≤ 160) (e : CmdError) :
    ¬ KeyError (storeKey s k) e := by
  rintro (invalid | long)
  · cases invalid
  · rw [storeKey_keyLen, BitVec.toNat_ofNat] at long
    omega

/-! ### What each rule raises -/

/-- A composite's error is its first part's, or the rest's after that part succeeded (R174). -/
theorem error_andThen {r : Ran} {f : State → Ran} {e : CmdError} (raised : (r.andThen f).error = some e) :
    r.error = some e ∨ (r = .succeed r.state ∧ (f r.state).error = some e) := by
  rcases andThen_cases r f with ⟨succeeded, rest⟩ | ⟨_, _, stopped⟩
  · exact .inr ⟨succeeded, rest ▸ raised⟩
  · exact .inl (stopped ▸ raised)

/-- B32_DECODE's errors are also TOTP_SECRET's, whose first part it is (R100, R177). -/
theorem mayRaise_of_runB32Decode {i : Instr} {s : State} {e : CmdError}
    (raiser : i ∈ ([.b32Decode, .totpSecret] : List Instr)) (raised : (runB32Decode s).error = some e) :
    MayRaise i s e := by
  rcases runB32Decode_cases s with ⟨long, rule⟩ | ⟨_, j, c, invalid, rule⟩ | ⟨_, k, _, rule⟩ <;>
    rw [rule] at raised <;> cases raised
  · exact ⟨raiser, of_decide_eq_true long⟩
  · exact ⟨raiser, invalid⟩

theorem error_runHmac {s : State} {e : CmdError} (raised : (runHmac s).error = some e) :
    KeyError s e ∨ (64 < s.msgLen.toNat ∧ e = .badLength .msgLen s.msgLen) := by
  rcases runHmac_cases s with ⟨invalid, rule⟩ | ⟨_, long, rule⟩ | ⟨_, _, long, rule⟩ | ⟨_, _, _, rule⟩ <;>
    rw [rule] at raised <;> cases raised
  · exact .inl (.noKey invalid)
  · exact .inl (.badLength (of_decide_eq_true long))
  · exact .inr ⟨of_decide_eq_true long, rfl⟩

/-- HOTP's errors are the key's alone: it sets MSG_LEN to 8, and TRUNC raises nothing (R175). -/
theorem error_runHotp {s : State} {e : CmdError} (raised : (runHotp s).error = some e) : KeyError s e := by
  rcases error_andThen raised with byHmac | ⟨_, byTrunc⟩
  · rcases error_runHmac byHmac with (invalid | long) | ⟨long, _⟩
    · exact .noKey invalid
    · exact .badLength long
    · exact absurd long (by decide : ¬ 64 < 8)
  · cases byTrunc

/-- TOTP's errors are PERIOD's and the key's, which CTR_TIME leaves as it is (R176). -/
theorem error_runTotp {s : State} {e : CmdError} (raised : (runTotp s).error = some e) :
    (s.period = 0#32 ∧ e = .divZero) ∨ KeyError s e := by
  rw [runTotp] at raised
  rcases runCtrTime_cases s with ⟨zero, rule⟩ | ⟨_, rule⟩ <;> rw [rule] at raised
  · cases raised
    exact .inl ⟨zero, rfl⟩
  · rcases error_runHotp raised with invalid | long
    · exact .inr (.noKey invalid)
    · exact .inr (.badLength long)

/-- TOTP_SECRET's errors are B32_DECODE's and PERIOD's: the key it decodes is usable (R177). -/
theorem mayRaise_of_runTotpSecret {s : State} {e : CmdError} (raised : (runTotpSecret s).error = some e) :
    MayRaise .totpSecret s e := by
  rcases error_andThen raised with byDecode | ⟨succeeded, byTotp⟩
  · exact mayRaise_of_runB32Decode (by decide) byDecode
  · rcases runB32Decode_cases s with ⟨_, rule⟩ | ⟨_, _, _, _, rule⟩ | ⟨short, k, decoded, rule⟩ <;>
      rw [rule] at succeeded byTotp
    · cases succeeded
    · cases succeeded
    · rcases error_runTotp byTotp with ⟨zero, rfl⟩ | unusable
      · exact ⟨by decide, zero⟩
      · exact absurd unusable (not_keyError_storeKey (decodedKey_le short decoded) e)

/-- Every error that an instruction's rule raises stands in R211's table. -/
theorem mayRaise_of_ruleOf {i : Instr} {s : State} {e : CmdError} (raised : (ruleOf i s).error = some e) :
    MayRaise i s e := by
  cases i
  case b32Decode => exact mayRaise_of_runB32Decode (by decide) raised
  case hmac =>
    rcases error_runHmac raised with unusable | ⟨long, rfl⟩
    · exact unusable.mayRaise (by decide)
    · exact ⟨rfl, long⟩
  case ctrTime =>
    rcases runCtrTime_cases s with ⟨zero, rule⟩ | ⟨_, rule⟩ <;> rw [ruleOf, rule] at raised <;> cases raised
    exact ⟨by decide, zero⟩
  case hotp => exact (error_runHotp raised).mayRaise (by decide)
  case totp =>
    rcases error_runTotp raised with ⟨zero, rfl⟩ | unusable
    · exact ⟨by decide, zero⟩
    · exact unusable.mayRaise (by decide)
  case totpSecret => exact mayRaise_of_runTotpSecret raised
  case illegal w =>
    cases raised
    rfl
  all_goals cases raised

/-! ### The obligation -/

/-- A completion with an error's code comes from an error of that code, with its cause (R71, R211). -/
theorem exists_mayRaise_of_errcode_eq {i : Instr} {s : State} {c : BitVec 8}
    (reported : (complete (ruleOf i s)).errcode = c) (nonzero : c ≠ 0x00#8) :
    ∃ e, MayRaise i s e ∧ e.code = c := by
  subst reported
  rcases ran_cases (ruleOf i s) with succeeded | ⟨e, raised⟩
  · rw [succeeded] at nonzero
    exact absurd rfl nonzero
  · exact ⟨e, mayRaise_of_ruleOf (congrArg Ran.error raised), by rw [raised]; rfl⟩

/-- Settles O60: ERR is read off ERRCODE; an ILLEGAL word always reports its code; and each other code is that of
one error, whose row of the table is the clause. -/
theorem errorCauses : Obligations.ErrorCauses := by
  intro i s t notReset run
  obtain rfl : complete (ruleOf i s) = t := by
    rw [exec_eq_complete notReset] at run
    exact Host.Outcome.next.inj run
  refine ⟨ranCode_le _, bne_eq_false_iff_eq, ⟨fun code => ?_, ?_⟩, fun code => ?_, fun code => ?_, fun code => ?_,
    fun code => ?_⟩
  · match exists_mayRaise_of_errcode_eq code (by decide) with
    | ⟨.illegalCmd w, row, _⟩ => exact ⟨w, row⟩
  · rintro ⟨w, rfl⟩
    rfl
  · match exists_mayRaise_of_errcode_eq code (by decide) with
    | ⟨.invalidEncoding j c, ⟨raiser, invalid⟩, _⟩ => exact ⟨raiser, j, c, invalid⟩
  · match exists_mayRaise_of_errcode_eq code (by decide) with
    | ⟨.noKey, row, _⟩ => exact row
  · match exists_mayRaise_of_errcode_eq code (by decide) with
    | ⟨.badLength .secLen _, row, _⟩ => exact .inl row
    | ⟨.badLength .keyLen _, row, _⟩ => exact .inr (.inl row)
    | ⟨.badLength .msgLen _, row, _⟩ => exact .inr (.inr row)
  · match exists_mayRaise_of_errcode_eq code (by decide) with
    | ⟨.divZero, row, _⟩ => exact row

end Sys2Proof.Machine
end


section
/-! PROOFS of the reset family: the reset state in one list (R241). -/

namespace Sys2Proof.Machine

/-- With DONE, ERR and OVR clear no enable can raise irq (R219). -/
theorem irq_eq_false_of_status_clear {s : State} (done : s.done = false) (err : s.err = false) (ovr : s.ovr = false) :
    irq s = false := by
  simp [irq, done, err, ovr]

/-- Settles O16: the registers and fields hold the list's values as they stand; the empty memory reads 0x00 at every
offset, and irq is low because STATUS is clear. -/
theorem resetValues : Obligations.ResetValues := by
  have zeroAscii : be32 0 0 0 0 = 0#32 := by decide
  have buffers : ∀ x, State.reset.mem.read x = 0x00#8 := Memory.read_nil
  have quiet : irq State.reset = false := irq_eq_false_of_status_clear rfl rfl rfl
  exact ⟨rfl, rfl, rfl, rfl, rfl, rfl, rfl, rfl, rfl, rfl, rfl, rfl, rfl, rfl, rfl, rfl, rfl, rfl,
    zeroAscii, zeroAscii, rfl, buffers, rfl, quiet, rfl, rfl⟩

end Sys2Proof.Machine
end

section
/-! PROOFS of the decoder and encoder as inverses of each other (R80 to R84, R202). -/

namespace Sys2Proof.Machine

/-! ### Decoding an encoding -/

/-- The decoder reads a plain command's word as that command. -/
theorem decodeCmd_cmdWord_plain {i : Instr} {op : BitVec 8} (plain : plainOpcode i = some op) :
    decodeCmd (cmdWord op 0#6) = i := by
  cases i <;> simp only [plainOpcode, Option.some.injEq, reduceCtorEq] at plain <;> subst plain <;> decide

/-- A word that no row covers decodes as ILLEGAL (R84, R201). -/
theorem decodeCmd_eq_illegal_of_not_legalWord {w : Word} (uncovered : legalWord w = false) :
    decodeCmd w = .illegal w := by
  rcases decodeCmd_cases w with ⟨i, op, plain, -, rfl⟩ | ⟨n, -, rfl⟩ | ⟨decoded, -⟩
  · rw [legalWord_plain plain] at uncovered
    cases uncovered
  · rw [legalWord_shaFinal n] at uncovered
    cases uncovered
  · exact decoded

theorem decode_encode_plain {i : Instr} {op : BitVec 8} (plain : plainOpcode i = some op) :
    decode (encode i) = .ok i := by
  rw [encode_plain plain, decode, decodeCmd_cmdWord_plain plain]

/-- Settles O1: a plain command by its opcode, SHA_FINAL by its fields, SRST by its data bit, and an illegal word
because no row covers it. -/
theorem decodeEncode : Obligations.DecodeEncode := by
  intro i wellFormed
  cases i with
  | shaFinal n => exact congrArg Except.ok (decodeCmd_cmdWord_shaFinal n)
  | srst => exact decode_ctrl_set (by decide)
  | illegal w =>
    exact congrArg Except.ok (decodeCmd_eq_illegal_of_not_legalWord ((Bool.not_eq_true' _).mp wellFormed))
  | nop | shaInit | shaUpdate | b32Decode | hmac | trunc | ctrTime | hotp | totp | totpSecret =>
    exact decode_encode_plain rfl

/-! ### Encoding a decoded word -/

/-- A word of SHA_FINAL's row has RSV = 0 and its opcode, and any ARG (R81, R83). -/
theorem decodeCmd_eq_shaFinal_of_masked {w : Word} (masked : w &&& 0xFFFFC0FF#32 = 0x00000003#32) :
    decodeCmd w = .shaFinal (argField w) := by
  have rsvMask : (0xFFFFC0FF#32).extractLsb' 14 18 = BitVec.allOnes 18 := by decide
  have opMask : (0xFFFFC0FF#32).extractLsb' 0 8 = BitVec.allOnes 8 := by decide
  have rsv : rsvField w = 0#18 := by
    have field := congrArg rsvField masked
    rwa [rsvField, BitVec.extractLsb'_and, rsvMask, BitVec.and_allOnes] at field
  have op : opField w = 0x03#8 := by
    have field := congrArg opField masked
    rwa [opField, BitVec.extractLsb'_and, opMask, BitVec.and_allOnes] at field
  rw [← cmdWord_fields rsv, op, decodeCmd_cmdWord_shaFinal, argField_cmdWord]

/-- No word that a row covers decodes as ILLEGAL (R84). -/
theorem decodeCmd_ne_illegal_of_legalWord {w : Word} (covered : legalWord w = true) : decodeCmd w ≠ .illegal w := by
  have plain (value : Word) (legal : decodeCmd value ≠ .illegal value) (masked : w &&& 0xFFFFFFFF#32 = value) :
      decodeCmd w ≠ .illegal w := by
    rw [show 0xFFFFFFFF#32 = BitVec.allOnes 32 by decide, BitVec.and_allOnes] at masked
    rwa [masked]
  obtain ⟨row, listed, covers⟩ := List.any_eq_true.mp covered
  have masked := eq_of_beq covers
  simp only [cmdRows, List.cons_append, List.nil_append, List.mem_cons, List.not_mem_nil, or_false] at listed
  rcases listed with rfl | rfl | rfl | rfl | rfl | rfl | rfl | rfl | rfl | rfl | rfl
  case inr.inr.inr.inl =>
    rw [decodeCmd_eq_shaFinal_of_masked masked]
    nofun
  all_goals exact plain _ (by decide) masked

/-- A plain command is well-formed: only ILLEGAL carries a check. -/
theorem wellFormed_of_plainOpcode {i : Instr} {op : BitVec 8} (plain : plainOpcode i = some op) : i.WellFormed := by
  cases i with
  | illegal w => cases plain
  | _ => rfl

/-- Settles O2: a plain command's word and SHA_FINAL's are made of their fields, and a word that decodes as ILLEGAL is
covered by no row. -/
theorem encodeDecode : Obligations.EncodeDecode := by
  intro w
  rcases decodeCmd_cases w with ⟨i, op, plain, decoded, word⟩ | ⟨n, decoded, word⟩ | ⟨decoded, -⟩ <;> rw [decoded]
  · exact ⟨wellFormed_of_plainOpcode plain, by rw [encode_plain plain, ← word]⟩
  · exact ⟨rfl, by rw [word]; rfl⟩
  · refine ⟨?_, rfl⟩
    cases covered : legalWord w with
    | false => exact (Bool.not_eq_true' _).mpr covered
    | true => exact absurd decoded (decodeCmd_ne_illegal_of_legalWord covered)

/-- Settles O3: each word is a closed term, which the decoder evaluates. -/
theorem decodeOpcodeMap : Obligations.DecodeOpcodeMap := by
  unfold Obligations.DecodeOpcodeMap
  decide

end Sys2Proof.Machine
end

section
/-! PROOFS of the step family: what a host access can do to the block, said once; the completion of an accepted command
(R71); that every step goes on; and the two resets (R202, R240, R243). -/

namespace Sys2Proof.Machine

/-! ### What an access can do -/

/-- The one access the block supports (R62). -/
theorem supported_eq_true_iff {off size : Nat} : supported off size = true ↔ size = 4 ∧ off % 4 = 0 := by
  simp [supported]

/-- What an access leaves in the block, beside the host's response: the state as it was, a drawn free value, the reset
state, or a register write. -/
inductive Effect (off size : Nat) (op : BusOp) (s : State) : State → Prop
  | none : Effect off size op s s
  | draw (busy : s.busy = true) : Effect off size op s { s with draws := s.draws + 1 }
  | reset {v : Word} (word : size = 4) (ctrl : off = 0x008) (write : op = .write v) (set : v.getLsbD 0 = true) :
      Effect off size op s (resetBlock s)
  | write {v : Word} (aligned : off % 4 = 0) : Effect off size op s (writeReg (regAt off) v s)

/-- Every access is one of those effects and a response. -/
theorem exists_access_eq (off size : Nat) (op : BusOp) (s : State) :
    ∃ u r, access off size op s = .next (respond u r) ∧ Effect off size op s u := by
  rcases access_cases off size op s with ⟨_, act⟩ | ⟨_, _, act⟩ | ⟨word, v, write, ctrl, act⟩ | ⟨word, v, _, _, act⟩ <;>
    rw [act]
  · exact ⟨s, _, rfl, .none⟩
  · rcases hostRead_cases off s with ⟨busy, _, read⟩ | ⟨_, read⟩ <;> rw [read]
    · exact ⟨_, _, rfl, .draw busy⟩
    · exact ⟨s, _, rfl, .none⟩
  · obtain ⟨size4, aligned⟩ := supported_eq_true_iff.mp word
    rcases writeCtrl_cases v s with ⟨set, ctrlWrite⟩ | ⟨_, ctrlWrite⟩ <;> rw [ctrlWrite]
    · exact ⟨resetBlock s, .ok, rfl, .reset size4 ((regAt_named aligned).1.mp ctrl) write set⟩
    · exact ⟨s, _, rfl, .none⟩
  · exact ⟨_, _, rfl, .write (supported_eq_true_iff.mp word).2⟩

/-- A write while busy, in its cases: STATUS, IRQEN, a dropped write, an ignored one (R69). -/
theorem writeBusy_cases (r : Reg) (v : Word) (s : State) :
    writeBusy r v s = clearStatus s v ∨ writeBusy r v s = setIrqen s v ∨ writeBusy r v s = overrun s ∨
      writeBusy r v s = s := by
  cases r <;> simp [writeBusy, writeDropped]

/-- A write to a register consumes no pending input. -/
theorem events_writeReg (r : Reg) (v : Word) (s : State) : (writeReg r v s).events = s.events := by
  unfold writeReg
  split
  · rcases writeBusy_cases r v s with act | act | act | act <;> rw [act] <;> rfl
  · cases r <;> rfl

theorem Effect.events {off size : Nat} {op : BusOp} {s u : State} (effect : Effect off size op s u) :
    u.events = s.events := by
  cases effect with
  | none | draw | reset => rfl
  | write => exact events_writeReg _ _ s

/-! ### The completion (R71) -/

/-- While busy, a completion event is the completion of the accepted word's rule. -/
theorem step_complete {s : State} (busy : s.busy = true) :
    step (s.facing .complete) = .next (complete (ruleOf (decodeCmd s.cmd) s)) := engineStep_busy busy

/-- While idle, a completion event does nothing. -/
theorem step_complete_idle {s : State} (idle : s.busy = false) :
    step (s.facing .complete) = .next s := engineStep_idle idle

theorem engineStep_eq_exec {s : State} (busy : s.busy = true) : engineStep s = exec (decodeCmd s.cmd) s := if_pos busy

/-- Settles O5: with a completion event next, or with no input left, the step is the engine's. -/
theorem stepRunsAcceptedCommand : Obligations.StepRunsAcceptedCommand := fun _ =>
  ⟨engineStep_eq_exec, fun busy empty => (step_nil empty).trans (engineStep_eq_exec busy),
    step_complete_idle, fun idle empty => (step_nil empty).trans (engineStep_idle idle)⟩

/-- Settles O8: a completion writes the status over what no command's rule writes; DONE is set and ERR says whether
ERRCODE is 0, which leaves the three enables of `irq`. -/
theorem completionStatus : Obligations.CompletionStatus := by
  intro s busy
  have keeps := keeps_ruleOf (decodeCmd s.cmd) s
  refine ⟨_, step_complete busy, rfl, rfl, bne_iff_ne, ranInfo_of_code_zero, rfl, keeps.cmd, keeps.ovr, keeps.irqen,
    keeps.secLen, keeps.time, keeps.period, keeps.events, keeps.responses, keeps.draws, ?_⟩
  rw [irq, complete_done, complete_err, complete_ovr, complete_irqen, complete_errcode, keeps.ovr, keeps.irqen,
    Bool.true_and, Bool.and_comm (s.irqen.getLsbD 1), Bool.and_comm (s.irqen.getLsbD 2)]

/-- Settles O41: neither rule writes a register. -/
theorem nopAndIllegal : Obligations.NopAndIllegal := fun s w =>
  ⟨exec_eq_succeeded (i := .nop) nofun rfl, exec_illegal w s⟩

/-! ### Every step goes on (R63, R84, R210) -/

theorem goesOn_engineStep (s : State) : GoesOn (engineStep s) := by
  cases busy : s.busy with
  | true => exact ⟨_, engineStep_busy busy⟩
  | false => exact ⟨s, engineStep_idle busy⟩

theorem goesOn_access (off size : Nat) (op : BusOp) (s : State) : GoesOn (access off size op s) := by
  obtain ⟨u, r, act, _⟩ := exists_access_eq off size op s
  exact ⟨_, act⟩

theorem goesOn_handle (e : Event) (s : State) : GoesOn (handle e s) := by
  cases e with
  | bus a => exact goesOn_access a.off.toNat a.size a.op s
  | mem a =>
    rw [handle, memAccess]
    split
    · exact goesOn_access _ a.size a.op s
    · exact ⟨_, rfl⟩
  | complete => exact goesOn_engineStep s
  | hardReset => exact ⟨_, rfl⟩

/-- Settles O9: the step is the engine's or the handling of an input, and both go on. -/
theorem stepAlwaysGoesOn : Obligations.StepAlwaysGoesOn := by
  intro s
  rcases step_cases s with ⟨_, act⟩ | ⟨e, rest, _, act⟩ <;> rw [act]
  · exact goesOn_engineStep s
  · exact goesOn_handle e _

/-! ### An accepted command completes (R71) -/

theorem events_engineStep {s t : State} (run : engineStep s = .next t) : t.events = s.events := by
  cases busy : s.busy with
  | true =>
    rw [engineStep_busy busy] at run
    cases run
    exact (keeps_ruleOf _ s).events
  | false =>
    rw [engineStep_idle busy] at run
    cases run
    rfl

theorem events_access {off size : Nat} {op : BusOp} {s t : State} (run : access off size op s = .next t) :
    t.events = s.events := by
  obtain ⟨u, r, act, effect⟩ := exists_access_eq off size op s
  rw [act] at run
  cases run
  exact effect.events

/-- The handling of an input leaves the inputs after it. -/
theorem events_handle {e : Event} {s t : State} (run : handle e s = .next t) : t.events = s.events := by
  cases e with
  | bus a => exact events_access run
  | mem a =>
    rw [handle, memAccess] at run
    split at run
    · exact events_access run
    · cases run
      rfl
  | complete => exact events_engineStep run
  | hardReset =>
    cases run
    rfl

theorem step_cons {s : State} {e : Event} {rest : List Event} (events : s.events = e :: rest) :
    step s = handle e { s with events := rest } := by
  rw [step, events]

/-- One step of a run, then the others. -/
theorem run_succ {s t : State} (first : step s = .next t) (k : Nat) :
    Sys2Proof.core.run (k + 1) s = Sys2Proof.core.run k t := by
  have next : Sys2Proof.core.step s = .next t := first
  simp only [Host.Core.run, next]

/-- From every state BUSY is 0 within as many steps as there are inputs left, and one more. -/
theorem exists_run_idle (n : Nat) {s : State} (left : s.events.length = n) :
    ∃ k t, k ≤ n + 1 ∧ Sys2Proof.core.run k s = .next t ∧ t.busy = false := by
  induction n generalizing s with
  | zero =>
    have last : step s = engineStep s := step_nil (List.eq_nil_of_length_eq_zero left)
    cases busy : s.busy with
    | true => exact ⟨1, _, Nat.le_refl 1, run_succ (last.trans (engineStep_busy busy)) 0, rfl⟩
    | false => exact ⟨0, s, Nat.zero_le _, rfl, busy⟩
  | succ n ih =>
    obtain ⟨e, rest, events⟩ := List.exists_cons_of_length_eq_add_one left
    obtain ⟨t, next⟩ := goesOn_handle e { s with events := rest }
    have first : step s = .next t := (step_cons events).trans next
    have fewer : t.events.length = n := by
      rw [events_handle next]
      rw [events] at left
      exact Nat.succ.inj left
    obtain ⟨k, u, bound, run, idle⟩ := ih fewer
    exact ⟨k + 1, u, Nat.succ_le_succ bound, (run_succ first k).trans run, idle⟩

/-- Settles O10: by induction on the inputs left, each step taking one of them and the last being the completion. -/
theorem commandCompletes : Obligations.CommandCompletes := fun _ _ => exists_run_idle _ rfl

/-! ### Reset (R25, R202, R240, R243) -/

theorem step_write_ctrl_set (s : State) {v : Word} (set : v.getLsbD 0 = true) :
    step (s.facing (writeEvent 0x008#12 v)) = .next (resetBlock (respond s .ok)) := by
  rw [step_write_ctrl, writeCtrl, decode_ctrl_set set]
  exact exec_srst _

theorem step_write_ctrl_clear (s : State) {v : Word} (clear : v.getLsbD 0 = false) :
    step (s.facing (writeEvent 0x008#12 v)) = .next (respond s .ok) := by
  rw [step_write_ctrl, writeCtrl, decode_ctrl_clear clear]

/-- Settles O6: the CTRL write decodes to SRST exactly when bit 0 is 1; CTRL's read is defined at any time. -/
theorem ctrlWriteRunsSoftReset : Obligations.CtrlWriteRunsSoftReset :=
  ⟨fun s _ => ⟨fun set => ⟨decode_ctrl_set set, step_write_ctrl_set s set⟩, step_write_ctrl_clear s,
    step_read_defined (by decide) rfl (.inr rfl)⟩, rfl, rfl⟩

/-- Settles O17: both are `resetBlock`. -/
theorem hardAndSoftReset : Obligations.HardAndSoftReset := fun s => ⟨exec_srst s, exec_srst s⟩

/-- Settles O18: either reset gives the reset state, in which BUSY = 0, so a completion event does nothing. -/
theorem resetCancelsCommand : Obligations.ResetCancelsCommand := by
  rintro s - e (rfl | ⟨v, set, rfl⟩)
  · exact ⟨resetBlock s, rfl, rfl, rfl, rfl, step_complete_idle rfl⟩
  · exact ⟨_, step_write_ctrl_set s set, rfl, rfl, rfl, step_complete_idle rfl⟩

end Sys2Proof.Machine
end

section
/-! PROOFS of the invariant: right after reset, and over every step (R24, R26, R29, R30, R39, R40, R48, R211). -/

namespace Sys2Proof.Machine

/-! ### The invariant and what it is made of -/

theorem State.Inv.kept {s : State} (inv : s.Inv) :
    Kept s := ⟨⟨inv.memWf, inv.inBuffers⟩, inv.codeOfDbc, inv.asciiOfCode⟩

/-- Settles O11: the reset values meet each clause. -/
theorem resetInv : Obligations.ResetInv where
  memWf := rfl
  inBuffers := nofun
  hiddenWhileBusy := rfl
  busyIsClean := nofun
  errcodeLegal := Nat.zero_le _
  errHasCode := nofun
  infoOnlyOnError _ := rfl
  codeOfDbc := by decide
  asciiOfCode := .inr ⟨rfl, rfl⟩

/-! ### What keeps it -/

theorem inv_resetBlock (s : State) : (resetBlock s).Inv := { resetInv with }

theorem inv_respond {s : State} (inv : s.Inv) (r : Response) : (respond s r).Inv := { inv with }

/-- A completion writes the status of R71 over what the rule kept. -/
theorem inv_complete {r : Ran} (kept : Kept r.state) : (complete r).Inv where
  memWf := kept.mem.1
  inBuffers := kept.mem.2
  hiddenWhileBusy := rfl
  busyIsClean := nofun
  errcodeLegal := ranCode_le r
  errHasCode := bne_iff_ne.mp
  infoOnlyOnError := ranInfo_of_code_zero
  codeOfDbc := kept.results.1
  asciiOfCode := kept.results.2

theorem inv_engineStep {s t : State} (inv : s.Inv) (run : engineStep s = .next t) : t.Inv := by
  cases busy : s.busy with
  | true =>
    rw [engineStep_busy busy] at run
    cases run
    exact inv_complete (kept_ruleOf _ inv.kept)
  | false =>
    rw [engineStep_idle busy] at run
    cases run
    exact inv

/-- Accept clears what BUSY = 1 requires clear, and takes up hidden state (R24, R48). -/
theorem inv_accept {s : State} (inv : s.Inv) (w : Word) : (accept s w).Inv :=
  { inv with
    hiddenWhileBusy := rfl
    busyIsClean := fun _ => ⟨rfl, rfl, rfl, rfl⟩
    errcodeLegal := Nat.zero_le _
    errHasCode := nofun
    infoOnlyOnError := fun _ => rfl }

/-- Clearing status bits leaves a clean status clean, and ERR set only where it was (R27). -/
theorem inv_clearStatus {s : State} (inv : s.Inv) (v : Word) : (clearStatus s v).Inv :=
  { inv with
    busyIsClean := fun busy => by
      obtain ⟨done, err, code, info⟩ := inv.busyIsClean busy
      exact ⟨by simp [done], by simp [err], code, info⟩
    errHasCode := fun err => inv.errHasCode ((Bool.and_eq_true_iff ..).mp err).1 }

/-- A stored buffer word keeps memory canonical and inside the buffers (R65). -/
theorem inv_writeIdle_buffer {s : State} (inv : s.Inv) {off : Nat} (inside : isBufferOff off = true)
    (aligned : off % 4 = 0) (v : Word) : (writeIdle (.buffer off) v s).Inv :=
  let mem := inv.kept.mem.writeWord inside aligned v
  { inv with memWf := mem.1, inBuffers := mem.2 }

theorem inv_writeIdle {s : State} (inv : s.Inv) {r : Reg} (v : Word)
    (buffer : ∀ off, r = .buffer off → isBufferOff off = true ∧ off % 4 = 0) : (writeIdle r v s).Inv := by
  cases r with
  | cmd => exact inv_accept inv v
  | status => exact inv_clearStatus inv v
  | buffer off => exact inv_writeIdle_buffer inv (buffer off rfl).1 (buffer off rfl).2 v
  | irqen | secLen | keyLen | msgLen | period | timeLo | timeHi | ctrLo | ctrHi | lenLo | lenHi
  | h0 | h1 | h2 | h3 | h4 =>
    exact { inv with }
  | id | version | ctrl | errcode | errinfo | dbc | code | codeAscii0 | codeAscii1 | reserved => exact inv

theorem inv_writeBusy {s : State} (inv : s.Inv) (r : Reg) (v : Word) : (writeBusy r v s).Inv := by
  rcases writeBusy_cases r v s with act | act | act | act <;> rw [act]
  · exact inv_clearStatus inv v
  · exact { inv with }
  · exact { inv with }
  · exact inv

theorem inv_writeReg {s : State} (inv : s.Inv) {off : Nat} (aligned : off % 4 = 0) (v : Word) :
    (writeReg (regAt off) v s).Inv := by
  unfold writeReg
  split
  · exact inv_writeBusy inv _ v
  · refine inv_writeIdle inv v fun k named => ?_
    obtain ⟨rfl, inside⟩ := isBufferOff_of_regAt named
    exact ⟨inside, aligned⟩

theorem inv_effect {s u : State} (inv : s.Inv) {off size : Nat} {op : BusOp} (effect : Effect off size op s u) :
    u.Inv := by
  cases effect with
  | none => exact inv
  | draw => exact { inv with }
  | reset => exact inv_resetBlock s
  | write aligned => exact inv_writeReg inv aligned _

theorem inv_access {s t : State} (inv : s.Inv) {off size : Nat} {op : BusOp} (run : access off size op s = .next t) :
    t.Inv := by
  obtain ⟨u, r, act, effect⟩ := exists_access_eq off size op s
  rw [act] at run
  cases run
  exact inv_respond (inv_effect inv effect) r

/-- Every input keeps the invariant. -/
theorem inv_handle {s t : State} (inv : s.Inv) {e : Event} (run : handle e s = .next t) : t.Inv := by
  cases e with
  | bus a => exact inv_access inv run
  | mem a =>
    rw [handle, memAccess] at run
    split at run
    · exact inv_access inv run
    · cases run
      exact inv_respond inv _
  | complete => exact inv_engineStep inv run
  | hardReset =>
    cases run
    exact inv_resetBlock s

/-- Settles O12: with an input left the step handles it, with none left it is the engine's. -/
theorem stepKeepsInv : Obligations.StepKeepsInv := by
  intro s t inv run
  rcases step_cases s with ⟨_, act⟩ | ⟨e, rest, _, act⟩ <;> rw [act] at run
  · exact inv_engineStep inv run
  · have waiting : State.Inv { s with events := rest } := { inv with }
    exact inv_handle waiting run

end Sys2Proof.Machine
end

section
/-! PROOFS of the register window: reads and writes while BUSY = 1 (R69, R70), what reads return and leave (R21, R64 to
R67), read-only and reserved offsets (R14, R64), the window at BASE (R60, R77), and what a running command may rely on.
-/

namespace Sys2Proof.Machine

/-! ### Writes while busy, and writes without effect (R14, R64, R69) -/

/-- A dropped write sets OVR and does nothing else (R69). -/
theorem writeBusy_of_writeDropped {r : Reg} (dropped : writeDropped r = true) (v : Word) (s : State) :
    writeBusy r v s = overrun s := by
  cases r with
  | id | version | ctrl | status | irqen | errcode | errinfo | dbc | code | codeAscii0 | codeAscii1 | reserved =>
    cases dropped
  | _ => rfl

/-- A write that is neither dropped nor one of STATUS or IRQEN does nothing (R69). -/
theorem writeBusy_of_not_writeDropped {r : Reg} (kept : writeDropped r = false) (status : r ≠ .status)
    (irqen : r ≠ .irqen)
    (v : Word) (s : State) : writeBusy r v s = s := by
  cases r with
  | status => exact absurd rfl status
  | irqen => exact absurd rfl irqen
  | id | version | ctrl | errcode | errinfo | dbc | code | codeAscii0 | codeAscii1 | reserved => rfl
  | _ => cases kept

/-- Settles O22: CTRL runs its reset or nothing; STATUS and IRQEN act; of the others the register map says which are
dropped. -/
theorem busyWrites : Obligations.BusyWrites := by
  intro s off v busy aligned
  obtain ⟨dropped, -, -⟩ := regAt_class aligned
  obtain ⟨ctrl, status, irqen⟩ := regAt_named aligned
  refine ⟨?_, ?_, ?_, ?_, fun rw => ?_, fun notCtrl notStatus notIrqen notRw => ?_⟩
  · rintro rfl set
    exact step_write_ctrl_set s set
  · rintro rfl clear
    exact step_write_ctrl_clear s clear
  · rintro rfl
    exact step_write_busy v aligned rfl nofun busy
  · rintro rfl
    exact step_write_busy v aligned rfl nofun busy
  · have isDropped := dropped.mpr rw
    have other : regAt off.toNat ≠ .ctrl := fun named => by rw [named] at isDropped; cases isDropped
    rw [step_write_busy v aligned rfl other busy, writeBusy_of_writeDropped isDropped]
    rfl
  · have kept : writeDropped (regAt off.toNat) = false := Bool.not_eq_true _ ▸ mt dropped.mp notRw
    have away {a : BitVec 12} (ne : off ≠ a) : off.toNat ≠ a.toNat := mt BitVec.eq_of_toNat_eq ne
    rw [step_write_busy v aligned rfl (mt ctrl.mp (away notCtrl)) busy,
      writeBusy_of_not_writeDropped kept (mt status.mp (away notStatus)) (mt irqen.mp (away notIrqen))]
    rfl

/-- Settles O26: the write of each of the eight registers is nothing, idle or busy. -/
theorem readOnlyWritesIgnored : Obligations.ReadOnlyWritesIgnored := by
  intro s off v listed
  simp only [List.mem_cons, List.not_mem_nil, or_false] at listed
  rcases listed with rfl | rfl | rfl | rfl | rfl | rfl | rfl | rfl
  all_goals exact step_write_of_writeBusy_eq v (by decide) rfl nofun rfl

/-- A read of a reserved offset (R64). -/
theorem step_read_reserved (s : State) {off : BitVec 12} (aligned : off.toNat % 4 = 0)
    (reserved : reservedOffset off.toNat) :
    step (s.facing (readEvent off)) = .next { s with responses := .data 0#32 :: s.responses } :=
  step_read_defined aligned ((regAt_class aligned).2.1.mpr reserved) (.inr rfl)

/-- Settles O27: a reserved offset's read is defined at any time and is 0; its write is nothing, idle or busy. -/
theorem reservedOffsets : Obligations.ReservedOffsets := fun s _ aligned reserved =>
  ⟨step_read_reserved s aligned reserved, fun v =>
    step_write_of_writeBusy_eq v aligned ((regAt_class aligned).2.1.mpr reserved) nofun rfl⟩

/-! ### Reads (R64 to R67, R70) -/

/-- Settles O23: the listed and the reserved offsets are those whose reads are defined while busy; ERRCODE and ERRINFO
then read 0. -/
theorem busyReads : Obligations.BusyReads := by
  intro s off busy aligned
  have defined {r : Reg} (named : regAt off.toNat = r) (always : definedWhileBusy r = true) :=
    step_read_defined (s := s) aligned named (.inr always)
  refine ⟨?_, ?_, ?_, ?_, ?_, ?_, fun high notReserved => ?_⟩
  · rintro (listed | reserved)
    · have errcode : readReg .errcode s = 0#32 := if_pos busy
      have errinfo : readReg .errinfo s = 0#32 := if_pos busy
      simp only [List.mem_cons, List.not_mem_nil, or_false] at listed
      rcases listed with rfl | rfl | rfl
      · exact defined rfl rfl
      · exact errcode ▸ defined (r := .errcode) rfl rfl
      · exact errinfo ▸ defined (r := .errinfo) rfl rfl
    · exact step_read_reserved s aligned reserved
  · rintro rfl
    exact defined rfl rfl
  · rintro rfl
    exact defined rfl rfl
  · rintro rfl
    exact defined rfl rfl
  · rintro rfl
    exact defined rfl rfl
  · rintro rfl
    exact defined rfl rfl
  · have undefined : ¬ definedWhileBusy (regAt off.toNat) = true := fun always =>
      ((regAt_class aligned).2.2.mp always).elim (Nat.not_lt.mpr high) notReserved
    rw [step_read s aligned]
    rcases hostRead_cases off.toNat s with ⟨_, _, read⟩ | ⟨idle | always, _⟩
    · exact ⟨_, congrArg _ read⟩
    · rw [busy] at idle
      cases idle
    · exact absurd always undefined

/-- Settles O24: a read is its response, and a drawn value where it is undefined, which it is only while busy. -/
theorem readsChangeNothing : Obligations.ReadsChangeNothing := by
  intro s off aligned
  rw [step_read s aligned]
  rcases hostRead_cases off.toNat s with ⟨busy, _, read⟩ | ⟨_, read⟩ <;> rw [read]
  · exact ⟨_, _, rfl, rfl, fun idle => by rw [busy] at idle; cases idle⟩
  · exact ⟨_, _, rfl, rfl, fun _ => ⟨rfl, rfl⟩⟩

/-- The low half of a pair as a remainder (R66). -/
theorem loHalf_eq_ofNat (x : BitVec 64) : loHalf x = BitVec.ofNat 32 (x.toNat % 2 ^ 32) := by
  apply BitVec.eq_of_toNat_eq
  simp [loHalf]

/-- The high half of a pair as a quotient (R66). -/
theorem hiHalf_eq_ofNat (x : BitVec 64) : hiHalf x = BitVec.ofNat 32 (x.toNat / 2 ^ 32) := by
  apply BitVec.eq_of_toNat_eq
  simp [hiHalf, Nat.shiftRight_eq_div_pow]

/-- Settles O25: while idle every read is defined, so each is the register map's entry and its committed value. -/
theorem idleReads : Obligations.IdleReads := by
  intro s idle reads low high
  have read {off : BitVec 12} {r : Reg} {v : Word} (aligned : off.toNat % 4 = 0) (named : regAt off.toNat = r)
      (value : readReg r s = v) : reads off v := value ▸ step_read_defined aligned named (.inl idle)
  have notBusy : ¬ s.busy = true := by simp [idle]
  refine ⟨⟨read (by decide) rfl (if_neg notBusy), read (by decide) rfl (if_neg notBusy), ?_, ?_, ?_, ?_⟩,
    ⟨read (by decide) rfl (loHalf_eq_ofNat s.time), read (by decide) rfl (hiHalf_eq_ofNat s.time),
      read (by decide) rfl (loHalf_eq_ofNat s.ctr), read (by decide) rfl (hiHalf_eq_ofNat s.ctr),
      read (by decide) rfl (loHalf_eq_ofNat s.len), read (by decide) rfl (hiHalf_eq_ofNat s.len)⟩,
    ⟨?_, ?_, ?_, ?_⟩, ⟨?_, ?_, ?_, ?_, ?_⟩,
    fun off aligned inBuffer => read aligned (regAt_buffer ((isBufferOff_iff _).mpr inBuffer)) rfl⟩
  all_goals exact read (by decide) rfl rfl

/-! ### The window at BASE (R60, R77, R79) -/

theorem windowOffset_base_add (off : BitVec 12) : windowOffset (Config.base + off.toNat) = some off.toNat := by
  have inside : Config.base ≤ Config.base + off.toNat ∧ Config.base + off.toNat < Config.base + Config.windowBytes :=
    ⟨Nat.le_add_right .., Nat.add_lt_add_left off.isLt _⟩
  rw [windowOffset, if_pos inside, Nat.add_sub_cancel_left]

theorem eq_base_add_of_windowOffset {addr off : Nat} (inside : windowOffset addr = some off) :
    addr = Config.base + off := by
  rw [windowOffset] at inside
  split at inside
  case isTrue range =>
    cases inside
    omega
  case isFalse => cases inside

theorem windowOffset_outside {addr : Nat} (outside : addr < Config.base ∨ Config.base + 4096 ≤ addr) :
    windowOffset addr = none := if_neg fun ⟨above, below⟩ =>
  outside.elim (Nat.not_lt.mpr above) (Nat.not_le.mpr below)

/-- A host transaction inside the window is the access at its offset. -/
theorem step_mem_base_add (s : State) (off : BitVec 12) (size : Nat) (op : BusOp) :
    step (s.facing (.mem ⟨Config.base + off.toNat, size, op⟩)) = step (s.facing (.bus ⟨off, size, op⟩)) := by
  rw [step_bus, step_facing, handle, memAccess, windowOffset_base_add]

/-- Settles O29: the offset of an address inside the window is unique, and an address outside it has none. -/
theorem windowAtBase : Obligations.WindowAtBase := by
  refine ⟨Nat.mul_mod_right .., step_mem_base_add, fun s addr size op outside => ?_⟩
  rw [step_facing, handle, memAccess, windowOffset_outside outside]
  rfl

/-! ### What a running command may rely on (R69, R71, R75) -/

/-- A running command goes on with the operands it had, and the results stay. -/
structure StaysBusy (s t : State) : Prop where
  busy : t.busy = true
  operands : SameOperands s t
  results : SameResults s t

theorem StaysBusy.refl {s : State} (busy : s.busy = true) : StaysBusy s s :=
  ⟨busy, ⟨rfl, rfl, rfl, rfl, rfl, rfl, rfl, rfl, rfl, rfl, rfl⟩, ⟨rfl, rfl, rfl⟩⟩

theorem StaysBusy.respond {s u : State} (stays : StaysBusy s u) (r : Response) : StaysBusy s (respond u r) :=
  ⟨stays.busy, { stays.operands with }, { stays.results with }⟩

/-- A write while busy writes STATUS bits or IRQEN and nothing else. -/
theorem staysBusy_writeReg {s : State} (busy : s.busy = true) (r : Reg) (v : Word) : StaysBusy s (writeReg r v s) := by
  rw [writeReg, if_pos busy]
  rcases writeBusy_cases r v s with act | act | act | act <;> rw [act]
  all_goals exact ⟨busy, { (StaysBusy.refl busy).operands with }, { (StaysBusy.refl busy).results with }⟩

/-- An access to a running block is the soft reset, or the command goes on. -/
theorem softReset_or_staysBusy_of_access {off size : Nat} {op : BusOp} {s t : State} (busy : s.busy = true)
    (run : access off size op s = .next t) :
    (size = 4 ∧ off = 0x008 ∧ ∃ v : Word, v.getLsbD 0 = true ∧ op = .write v) ∨ StaysBusy s t := by
  obtain ⟨u, r, act, effect⟩ := exists_access_eq off size op s
  rw [act] at run
  cases run
  cases effect with
  | none => exact .inr ((StaysBusy.refl busy).respond r)
  | draw => exact .inr ⟨busy, { (StaysBusy.refl busy).operands with }, { (StaysBusy.refl busy).results with }⟩
  | reset word ctrl write set => exact .inl ⟨word, ctrl, _, set, write⟩
  | write => exact .inr ((staysBusy_writeReg busy _ _).respond r)

/-- The soft reset as an input: a word write to CTRL with bit 0 = 1, at the port or by physical address (R25, R79). -/
def IsSoftReset (e : Event) : Prop :=
  ∃ v : Word, v.getLsbD 0 = true ∧ (e = writeEvent 0x008#12 v ∨ e = .mem ⟨Config.base + 0x008, 4, .write v⟩)

/-- A host input that is not the soft reset leaves a running command as it is. -/
theorem staysBusy_of_handle {e : Event} {s t : State} (busy : s.busy = true) (notComplete : e ≠ .complete)
    (notHard : e ≠ .hardReset) (notSoft : ¬ IsSoftReset e) (run : handle e s = .next t) : StaysBusy s t := by
  cases e with
  | bus a =>
    obtain ⟨off, size, op⟩ := a
    rcases softReset_or_staysBusy_of_access busy run with ⟨rfl, ctrl, v, set, rfl⟩ | stays
    · have off8 : off = 0x008#12 := BitVec.eq_of_toNat_eq ctrl
      exact absurd ⟨v, set, .inl (by rw [off8]; rfl)⟩ notSoft
    · exact stays
  | mem a =>
    obtain ⟨addr, size, op⟩ := a
    rw [handle, memAccess] at run
    split at run
    case h_1 off inside =>
      obtain rfl := eq_base_add_of_windowOffset inside
      rcases softReset_or_staysBusy_of_access busy run with ⟨rfl, rfl, v, set, rfl⟩ | stays
      · exact absurd ⟨v, set, .inr rfl⟩ notSoft
      · exact stays
    case h_2 =>
      cases run
      exact (StaysBusy.refl busy).respond _
  | complete => exact absurd rfl notComplete
  | hardReset => exact absurd rfl notHard

/-- The soft reset, at the port or at the address of CTRL, is `resetBlock`. -/
theorem step_softReset (s : State) {e : Event} (soft : IsSoftReset e) :
    step (s.facing e) = .next (resetBlock (respond s .ok)) := by
  obtain ⟨v, set, rfl | rfl⟩ := soft
  · exact step_write_ctrl_set s set
  · exact (step_mem_base_add s 0x008#12 4 (.write v)).trans (step_write_ctrl_set s set)

/-- Settles O14: an access that is not the soft reset keeps the command running, and the soft reset is `resetBlock`. -/
theorem busyProtectsOperands : Obligations.BusyProtectsOperands := by
  intro s t e busy notComplete notHard run softReset
  refine ⟨fun notSoft => ?_, fun soft => ?_⟩
  · obtain ⟨stillBusy, operands, results⟩ := staysBusy_of_handle busy notComplete notHard notSoft run
    exact ⟨stillBusy, operands, results⟩
  · rw [step_softReset s soft] at run
    cases run
    rfl

/-! ### A write while idle is read back (R31 to R37, R41 to R46, R66, R72) -/

/-- What a register holds after a word is written to it: the length registers keep 16 bits (R31, R32, R33). -/
def storedWord (r : Reg) (v : Word) : Word :=
  match r with
  | .secLen | .keyLen | .msgLen => v &&& 0xFFFF#32
  | _ => v

theorem readReg_writeIdle_same {r : Reg} (rw : writeDropped r = true) (v : Word) {s : State} (wf : s.mem.wf = true) :
    readReg r (writeIdle r v s) = storedWord r v := by
  cases r with
  | secLen | keyLen | msgLen => exact low16 v
  | timeLo | ctrLo | lenLo => exact loHalf_setLo _ v
  | timeHi | ctrHi | lenHi => exact hiHalf_setHi _ v
  | buffer off => exact Memory.readWord_writeWord wf off v
  | cmd | period | h0 | h1 | h2 | h3 | h4 => rfl
  | id | version | ctrl | status | irqen | errcode | errinfo | dbc | code | codeAscii0 | codeAscii1 | reserved =>
    cases rw

/-- Two different registers hold different fields or halves; two buffer words are disjoint. -/
theorem readReg_writeIdle_other {r other : Reg} (notCmd : r ≠ .cmd) (ne : other ≠ r) (notStatus : other ≠ .status)
    (v : Word) {s : State} (wf : s.mem.wf = true)
    (disjoint : ∀ a c, r = .buffer a → other = .buffer c → c + 4 ≤ a ∨ a + 4 ≤ c) :
    readReg other (writeIdle r v s) = readReg other s := by
  cases r with
  | cmd => exact absurd rfl notCmd
  | buffer a =>
    cases other with
    | buffer c => exact Memory.readWord_writeWord_ne wf v (disjoint a c rfl rfl)
    | _ => rfl
  | timeLo | ctrLo | lenLo => cases other <;> first | rfl | exact absurd rfl ne | exact hiHalf_setLo _ v
  | timeHi | ctrHi | lenHi => cases other <;> first | rfl | exact absurd rfl ne | exact loHalf_setHi _ v
  | _ => cases other <;> first | rfl | exact absurd rfl ne | exact absurd rfl notStatus

/-- A write to a register other than CMD and STATUS leaves STATUS's first four bits. -/
theorem status_writeIdle {r : Reg} (notCmd : r ≠ .cmd) (notStatus : r ≠ .status) (v : Word) (s : State) :
    (writeIdle r v s).busy = s.busy ∧ (writeIdle r v s).done = s.done ∧ (writeIdle r v s).err = s.err ∧
      (writeIdle r v s).ovr = s.ovr := by
  cases r with
  | cmd => exact absurd rfl notCmd
  | status => exact absurd rfl notStatus
  | _ => exact ⟨rfl, rfl, rfl, rfl⟩

/-- Only a write to KEY_LEN changes KEYVALID, which it sets (R46). -/
theorem keyvalid_writeIdle (r : Reg) (v : Word) (s : State) :
    (writeIdle r v s).keyvalid = if r = .keyLen then true else s.keyvalid := by
  cases r <;> rfl

theorem wf_writeIdle (r : Reg) (v : Word) {s : State} (wf : s.mem.wf = true) : (writeIdle r v s).mem.wf = true := by
  cases r with
  | buffer off => exact Memory.writeWord_wf wf off v
  | _ => exact wf

/-- The aligned offset of a register is unique (R21). -/
theorem regAt_injective_low :
    ∀ i < 32, ∀ j < 32, regAt (4 * i) = regAt (4 * j) → i = j ∨ regAt (4 * i) = .reserved := by
  decide +kernel

theorem regAt_injective {o p : Nat} (oAligned : o % 4 = 0) (pAligned : p % 4 = 0) (named : regAt o ≠ .reserved)
    (same : regAt o = regAt p) : o = p := by
  by_cases buffer : isBufferOff o = true
  · have oBuffer := regAt_buffer buffer
    exact (isBufferOff_of_regAt (same ▸ oBuffer)).1
  · have low {q : Nat} (qNamed : regAt q = regAt o) : q < 0x080 := by
      by_contra high
      cases qBuffer : isBufferOff q with
      | true =>
        have shared := regAt_buffer qBuffer
        exact buffer (isBufferOff_of_regAt (qNamed ▸ shared)).2
      | false => exact named (qNamed ▸ regAt_not_buffer (by omega) qBuffer)
    have oLow := low rfl
    have pLow := low same.symm
    have oTimes : o = 4 * (o / 4) := by omega
    have pTimes : p = 4 * (p / 4) := by omega
    rw [oTimes, pTimes] at same
    rcases regAt_injective_low (o / 4) (by omega) (p / 4) (by omega) same with eq | reserved
    · omega
    · exact absurd (oTimes ▸ reserved) named

/-- An offset names the register of another offset only by being that offset (R21). -/
theorem regAt_eq_iff {off a : BitVec 12} (aligned : off.toNat % 4 = 0) (named : regAt off.toNat ≠ .reserved)
    (aAligned : a.toNat % 4 = 0) : regAt off.toNat = regAt a.toNat ↔ off = a :=
  ⟨fun same => BitVec.eq_of_toNat_eq (regAt_injective aligned aAligned named same), fun eq => by rw [eq]⟩

/-- The length registers are at three offsets, and what is written anywhere else is kept whole (R21, R31, R32, R33). -/
theorem storedWord_regAt {off : BitVec 12} (aligned : off.toNat % 4 = 0) (named : regAt off.toNat ≠ .reserved)
    (v : Word) :
    storedWord (regAt off.toNat) v = if off ∈ [0x020#12, 0x024#12, 0x028#12] then v &&& 0xFFFF#32 else v := by
  have secLen := regAt_eq_iff (a := 0x020#12) aligned named (by decide)
  have keyLen := regAt_eq_iff (a := 0x024#12) aligned named (by decide)
  have msgLen := regAt_eq_iff (a := 0x028#12) aligned named (by decide)
  split
  case isTrue listed =>
    simp only [List.mem_cons, List.not_mem_nil, or_false] at listed
    rcases listed with rfl | rfl | rfl <;> rfl
  case isFalse unlisted =>
    simp only [List.mem_cons, List.not_mem_nil, or_false, not_or] at unlisted
    obtain ⟨notSec, notKey, notMsg⟩ := unlisted
    unfold storedWord
    split
    case h_1 name => exact absurd (secLen.mp name) notSec
    case h_2 name => exact absurd (keyLen.mp name) notKey
    case h_3 name => exact absurd (msgLen.mp name) notMsg
    case h_4 => rfl

/-- Settles O30: the register map names each aligned offset's register once, and the write reaches that register alone.
-/
theorem writeReadsBack : Obligations.WriteReadsBack := by
  intro s off v idle wf aligned rwOff notCmdOff
  have rw : writeDropped (regAt off.toNat) = true := (regAt_class aligned).1.mpr rwOff
  have away {r : Reg} (kept : writeDropped r = false) : regAt off.toNat ≠ r := fun named => by
    rw [named, kept] at rw
    cases rw
  have named := away (r := .reserved) rfl
  have notCmd : regAt off.toNat ≠ .cmd := mt (regAt_eq_iff (a := 0x00C#12) aligned named (by decide)).mp notCmdOff
  obtain ⟨busy, done, err, ovr⟩ := status_writeIdle notCmd (away (r := .status) rfl) v s
  refine ⟨respond (writeIdle (regAt off.toNat) v s) .ok, step_write_idle v aligned rfl (away rfl) idle,
    wf_writeIdle _ v wf, busy.trans idle, done, err, ovr, ?_, ?_, fun o oAligned ne notStatus => ?_⟩
  · rw [respond_keyvalid, keyvalid_writeIdle]
    exact if_congr (regAt_eq_iff (a := 0x024#12) aligned named (by decide)) rfl rfl
  · exact (readReg_writeIdle_same rw v wf).trans (storedWord_regAt aligned named v)
  · have otherReg : regAt o.toNat ≠ regAt off.toNat := fun same =>
      ne ((regAt_eq_iff aligned named oAligned).mp same.symm).symm
    have otherThanStatus : regAt o.toNat ≠ .status := fun name =>
      notStatus (BitVec.eq_of_toNat_eq ((regAt_named oAligned).2.1.mp name))
    refine readReg_writeIdle_other notCmd otherReg otherThanStatus v wf fun a c offBuffer oBuffer => ?_
    obtain ⟨rfl, -⟩ := isBufferOff_of_regAt offBuffer
    obtain ⟨rfl, -⟩ := isBufferOff_of_regAt oBuffer
    have apart : o.toNat ≠ off.toNat := mt BitVec.eq_of_toNat_eq ne
    omega

end Sys2Proof.Machine
end

section
/-! PROOFS about what no rule reads: the fields that a completion writes, the hidden state among them, and TIME but for
CTR_TIME. From it follow the noninterference of the hidden state (R48) and the order of the composites (R174). -/

namespace Sys2Proof.Machine

/-! ### Rules that do not read a field -/

/-- The state with the fields that a completion writes, and TIME, taken from another state. -/
def State.veil (m s : State) : State :=
  { s with
    busy := m.busy, done := m.done, err := m.err, errcode := m.errcode, errinfo := m.errinfo, hidden := m.hidden
    time := m.time }

/-- A rule's result with its state changed. -/
def Ran.map (f : State → State) (r : Ran) : Ran := ⟨f r.state, r.error⟩

/-- `do` after a change of state that the next rule does not see (R174). -/
theorem map_andThen {g : State → State} {r : Ran} {f : State → Ran} (blind : f (g r.state) = (f r.state).map g) :
    (r.map g).andThen f = (r.andThen f).map g := by
  obtain ⟨s, _ | e⟩ := r
  · exact blind
  · rfl

/-- Both branches of a check change alike. -/
theorem map_ite (g : State → State) (c : Prop) [Decidable c] (a b : Ran) :
    (if c then a else b).map g = if c then a.map g else b.map g := apply_ite (Ran.map g) c a b

section
variable (m s : State)

theorem eraseKey_veil : eraseKey (m.veil s) = m.veil (eraseKey s) := by
  simp only [eraseKey, State.veil]

theorem runB32Decode_veil : runB32Decode (m.veil s) = (runB32Decode s).map m.veil := by
  have long : secLenBad (m.veil s) = secLenBad s := rfl
  have secret : secretOf (m.veil s) = secretOf s := rfl
  rw [runB32Decode, runB32Decode, map_ite, long, secret]
  congr 1
  cases base32Decode (secretOf s) with
  | bytes k => rfl
  | invalid i c => exact congrArg (Ran.raise · (.invalidEncoding i c)) (eraseKey_veil m s)

theorem setBlock_veil (bs : List Byte) : setBlock (m.veil s) bs = m.veil (setBlock s bs) := rfl

theorem hmacDone_veil : hmacDone (m.veil s) = m.veil (hmacDone s) := by
  have key : keyOf (m.veil s) = keyOf s := rfl
  have message : messageOf (m.veil s) = messageOf s := rfl
  rw [hmacDone, key, message]
  exact setBlock_veil m { s with hash := sha1State (hmacOuterMessage (keyOf s) (messageOf s)), len := hmacLen } _

/-- HMAC's rule as its checks in order, and its state of success (R153, R214). -/
theorem runHmac_eq : runHmac s =
    if !s.keyvalid then .raise s .noKey
    else if keyLenBad s then .raise s (.badLength .keyLen s.keyLen)
    else if msgLenBad s then .raise s (.badLength .msgLen s.msgLen)
    else .succeed (hmacDone s) := rfl

theorem runHmac_veil : runHmac (m.veil s) = (runHmac s).map m.veil := by
  simp only [runHmac_eq, map_ite, hmacDone_veil]
  rfl

theorem runTrunc_veil : runTrunc (m.veil s) = (runTrunc s).map m.veil := rfl

theorem runHotp_veil : runHotp (m.veil s) = (runHotp s).map m.veil := by
  have load : loadCounter (m.veil s) = m.veil (loadCounter s) := rfl
  unfold runHotp
  rw [load, runHmac_veil]
  exact map_andThen (f := runTrunc) (runTrunc_veil m _)

variable {m s} (time : m.time = s.time)
include time

/-- CTR_TIME does read TIME. -/
theorem runCtrTime_veil : runCtrTime (m.veil s) = (runCtrTime s).map m.veil := by
  simp only [runCtrTime, map_ite, ← time]
  rfl

theorem runTotp_veil : runTotp (m.veil s) = (runTotp s).map m.veil := by
  unfold runTotp
  rw [runCtrTime_veil time]
  exact map_andThen (runHotp_veil m _)

theorem runTotpSecret_veil : runTotpSecret (m.veil s) = (runTotpSecret s).map m.veil := by
  unfold runTotpSecret
  rw [runB32Decode_veil]
  exact map_andThen (runTotp_veil (time.trans (keeps_b32Decode s).time.symm))

theorem ruleOf_veil (i : Instr) : ruleOf i (m.veil s) = (ruleOf i s).map m.veil := by
  cases i with
  | nop | shaInit | shaUpdate | shaFinal | trunc | srst | illegal => rfl
  | b32Decode => exact runB32Decode_veil m s
  | hmac => exact runHmac_veil m s
  | ctrTime => exact runCtrTime_veil time
  | hotp => exact runHotp_veil m s
  | totp => exact runTotp_veil time
  | totpSecret => exact runTotpSecret_veil time

/-- A completion does not depend on the fields that it writes. -/
theorem complete_ruleOf_veil (i : Instr) : complete (ruleOf i (m.veil s)) = complete (ruleOf i s) := by
  have kept : (ruleOf i s).state.time = m.time := (keeps_ruleOf i s).time.trans time.symm
  rw [ruleOf_veil time]
  unfold complete Ran.map State.veil
  rw [← kept]
  rfl

end

/-! ### Composite commands (R174) -/

/-- A composite of two instructions' rules is the first's completion and, if that reports no error, the second's. -/
theorem exec_composite {whole first next : Instr} {s u t : State}
    (notReset : whole ≠ .srst ∧ first ≠ .srst ∧ next ≠ .srst)
    (rule : ruleOf whole s = (ruleOf first u).andThen (ruleOf next)) (run : exec first u = .next t) :
    exec whole s = if t.errcode = 0x00#8 then exec next t else .next t := by
  obtain ⟨wholeRuns, firstRuns, nextRuns⟩ := notReset
  rw [exec_eq_complete firstRuns] at run
  cases run
  rw [exec_eq_complete wholeRuns, exec_eq_complete nextRuns, rule]
  rcases andThen_cases (ruleOf first u) (ruleOf next) with ⟨succeeded, both⟩ | ⟨e, raised, stopped⟩
  · have done : complete (ruleOf first u) = (complete (ruleOf first u)).veil (ruleOf first u).state := by
      rw [succeeded]
      rfl
    rw [if_pos (by rw [complete_errcode, succeeded, succeed_code]), both, done,
      complete_ruleOf_veil (m := complete (ruleOf first u)) (s := (ruleOf first u).state) rfl]
  · rw [if_neg (by rw [complete_errcode, raised, raise_code]; exact errorCode_ne_zero e), stopped]

/-- Settles O55: each of the three rules is a `do` of two others, HOTP's first part being HMAC on the loaded counter. -/
theorem compositeSequencing : Obligations.CompositeSequencing := fun _ _ =>
  ⟨exec_composite (whole := .totp) (first := .ctrTime) (next := .hotp) ⟨nofun, nofun, nofun⟩ rfl,
    exec_composite (whole := .totpSecret) (first := .b32Decode) (next := .totp) ⟨nofun, nofun, nofun⟩ rfl,
    exec_composite (whole := .hotp) (first := .hmac) (next := .trunc) ⟨nofun, nofun, nofun⟩ rfl⟩

/-! ### What an access can see (R48) -/

/-- An outcome without the hidden state. -/
def seen (o : Host.Outcome State Fault Refusal) : Host.Outcome State Fault Refusal :=
  match o with
  | .next t => .next t.visible
  | .fault r => .fault r
  | .refused r => .refused r

section
variable (h : Option Hidden) (s : State)

theorem visible_writeReg (r : Reg) (v : Word) :
    (writeReg r v { s with hidden := h }).visible = (writeReg r v s).visible := by
  simp only [writeReg]
  split
  · cases r <;> rfl
  · cases r <;> rfl

theorem visible_hostRead (off : Nat) : (hostRead off { s with hidden := h }).visible = (hostRead off s).visible := by
  simp only [hostRead]
  split
  · rfl
  · cases regAt off <;> rfl

theorem seen_writeCtrl (v : Word) : seen (writeCtrl v { s with hidden := h }) = seen (writeCtrl v s) := by
  unfold writeCtrl
  cases bit : v.getLsbD 0 with
  | true =>
    rw [decode_ctrl_set bit]
    rfl
  | false =>
    rw [decode_ctrl_clear bit]
    rfl

theorem seen_hostWrite (off : Nat) (v : Word) :
    seen (hostWrite off v { s with hidden := h }) = seen (hostWrite off v s) := by
  by_cases ctrl : regAt off = .ctrl
  · simp only [hostWrite, ctrl]
    exact seen_writeCtrl h s v
  · rw [hostWrite_eq v _ ctrl, hostWrite_eq v _ ctrl]
    have same := visible_writeReg h s (regAt off) v
    exact congrArg (fun t : State => Host.Outcome.next (respond t .ok)) same

theorem seen_access (off size : Nat) (op : BusOp) :
    seen (access off size op { s with hidden := h }) = seen (access off size op s) := by
  unfold access
  split
  · cases op with
    | read => exact congrArg Host.Outcome.next (visible_hostRead h s off)
    | write v => exact seen_hostWrite h s off v
  · rfl

/-- The completion drops the hidden state, which its rule does not read. -/
theorem seen_engineStep : seen (engineStep { s with hidden := h }) = seen (engineStep s) := by
  by_cases busy : s.busy = true
  · rw [engineStep_busy (s := { s with hidden := h }) busy, engineStep_busy busy]
    exact congrArg (fun t => seen (.next t)) (complete_ruleOf_veil (m := { s with hidden := h }) (s := s) rfl _)
  · rw [Bool.not_eq_true] at busy
    rw [engineStep_idle (s := { s with hidden := h }) busy, engineStep_idle busy]
    rfl

theorem seen_handle (e : Event) : seen (handle e { s with hidden := h }) = seen (handle e s) := by
  cases e with
  | bus a => exact seen_access h s a.off.toNat a.size a.op
  | mem a =>
    simp only [handle, memAccess]
    split
    · exact seen_access h s _ a.size a.op
    · rfl
  | complete => exact seen_engineStep h s
  | hardReset => rfl

theorem seen_step : seen (step { s with hidden := h }) = seen (step s) := by
  rcases step_cases s with ⟨empty, act⟩ | ⟨e, rest, events, act⟩ <;> rw [act]
  · rw [step_nil (s := { s with hidden := h }) empty]
    exact seen_engineStep h s
  · rw [step_cons (s := { s with hidden := h }) events]
    exact seen_handle h { s with events := rest } e

end

/-- Settles O15: what a step lets be seen does not depend on the hidden state. -/
theorem hiddenIsInvisible : Obligations.HiddenIsInvisible := by
  intro s t u h run other
  have same := seen_step h s
  rw [run, other] at same
  exact (Host.Outcome.next.inj same).symm

end Sys2Proof.Machine
end

section
/-! PROOFS of R50's table of writers: what each rule may write, and that a composite writes what its primitives write.
-/

namespace Sys2Proof.Machine

/-! ### The parts of the table (R50) -/

/-- The rows of R50's table that some command writes; `rest` is what none does. -/
inductive Part where
  | key | message | ctr | chaining | block | results | rest

/-- The part holds the same in both states. -/
def Part.Same (s t : State) : Part → Prop
  | .key => t.keyLen = s.keyLen ∧ t.keyvalid = s.keyvalid ∧ ∀ x, 0x100 ≤ x → x < 0x1A0 → t.mem.read x = s.mem.read x
  | .message => t.msgLen = s.msgLen ∧ ∀ x, 0x0C0 ≤ x → x < 0x100 → t.mem.read x = s.mem.read x
  | .ctr => t.ctr = s.ctr
  | .chaining => t.hash = s.hash ∧ t.len = s.len
  | .block => ∀ x, 0x080 ≤ x → x < 0x0C0 → t.mem.read x = s.mem.read x
  | .results => t.dbc = s.dbc ∧ t.code = s.code ∧ t.ascii = s.ascii
  | .rest => (∀ x, 0x200 ≤ x → t.mem.read x = s.mem.read x) ∧ ∀ x, 0x0C8 ≤ x → x < 0x100 → t.mem.read x = s.mem.read x

theorem Part.Same.trans {s t u : State} {p : Part} (h : p.Same s t) (g : p.Same t u) : p.Same s u := by
  cases p with
  | key =>
    obtain ⟨hLen, hValid, hMem⟩ := h
    obtain ⟨gLen, gValid, gMem⟩ := g
    exact ⟨gLen.trans hLen, gValid.trans hValid, fun x lo hi => (gMem x lo hi).trans (hMem x lo hi)⟩
  | message => exact ⟨g.1.trans h.1, fun x lo hi => (g.2 x lo hi).trans (h.2 x lo hi)⟩
  | ctr => exact Eq.trans g h
  | chaining => exact ⟨g.1.trans h.1, g.2.trans h.2⟩
  | block => exact fun x lo hi => (g x lo hi).trans (h x lo hi)
  | results =>
    obtain ⟨hDbc, hCode, hAscii⟩ := h
    obtain ⟨gDbc, gCode, gAscii⟩ := g
    exact ⟨gDbc.trans hDbc, gCode.trans hCode, gAscii.trans hAscii⟩
  | rest => exact ⟨fun x lo => (g.1 x lo).trans (h.1 x lo), fun x lo hi => (g.2 x lo hi).trans (h.2 x lo hi)⟩

/-- From `s` to `t` nothing is written but the listed parts, and memory stays canonical. -/
structure Writes (parts : List Part) (s t : State) : Prop where
  wf : t.mem.wf = true
  same : ∀ p, p ∉ parts → p.Same s t

/-- Where no buffer and none of the registers beside the buffers is written, the other registers say what is. -/
theorem writes_of_mem_eq {parts : List Part} {s t : State} (wf : s.mem.wf = true) (mem : t.mem = s.mem)
    (key : t.keyLen = s.keyLen ∧ t.keyvalid = s.keyvalid) (message : t.msgLen = s.msgLen)
    (ctr : Part.ctr ∈ parts ∨ Part.ctr.Same s t) (chaining : Part.chaining ∈ parts ∨ Part.chaining.Same s t)
    (results : Part.results ∈ parts ∨ Part.results.Same s t) : Writes parts s t where
  wf := mem ▸ wf
  same p unlisted := by
    have reads (x : Nat) : t.mem.read x = s.mem.read x := by rw [mem]
    cases p with
    | key => exact ⟨key.1, key.2, fun x _ _ => reads x⟩
    | message => exact ⟨message, fun x _ _ => reads x⟩
    | ctr => exact ctr.resolve_left unlisted
    | chaining => exact chaining.resolve_left unlisted
    | block => exact fun x _ _ => reads x
    | results => exact results.resolve_left unlisted
    | rest => exact ⟨fun x _ => reads x, fun x _ _ => reads x⟩

theorem Writes.refl {s : State} (wf : s.mem.wf = true) (parts : List Part) : Writes parts s s :=
  writes_of_mem_eq wf rfl ⟨rfl, rfl⟩ rfl (.inr rfl) (.inr ⟨rfl, rfl⟩) (.inr ⟨rfl, rfl, rfl⟩)

theorem Writes.trans {ps qs : List Part} {s t u : State} (h : Writes ps s t) (g : Writes qs t u) :
    Writes (ps ++ qs) s u :=
  ⟨g.wf, fun p unlisted =>
    have ⟨notFirst, notSecond⟩ := not_or.mp (mt List.mem_append.mpr unlisted)
    (h.same p notFirst).trans (g.same p notSecond)⟩

/-- A composite writes what its parts write (R174). -/
theorem writes_andThen {ps qs : List Part} {s : State} {r : Ran} {f : State → Ran} (first : Writes ps s r.state)
    (next : ∀ t : State, t.mem.wf = true → Writes qs t (f t).state) : Writes (ps ++ qs) s (r.andThen f).state := by
  rcases andThen_cases r f with ⟨_, run⟩ | ⟨_, _, run⟩ <;> rw [run]
  · exact first.trans (next _ first.wf)
  · exact first.trans (.refl first.wf qs)

/-! ### What the primitives write -/

theorem writes_setBlock {s : State} (wf : s.mem.wf = true) {bs : List Byte} (len : bs.length = 64) :
    Writes [.block] s (setBlock s bs) where
  wf := Memory.writeBytes_wf wf _ _
  same p unlisted := by
    cases p with
    | block => exact absurd (List.mem_singleton.mpr rfl) unlisted
    | key => exact ⟨rfl, rfl, fun x lo _ => read_setBlock wf len (by omega)⟩
    | message => exact ⟨rfl, fun x lo _ => read_setBlock wf len (by omega)⟩
    | rest => exact ⟨fun x lo => read_setBlock wf len (by omega), fun x lo _ => read_setBlock wf len (by omega)⟩
    | ctr => rfl
    | chaining => exact ⟨rfl, rfl⟩
    | results => exact ⟨rfl, rfl, rfl⟩

/-- A new key, or none: KEYBUF, KEY_LEN and KEYVALID (R100). -/
theorem writes_fillKeyBuf {s : State} (wf : s.mem.wf = true) {k : List Byte} (short : k.length ≤ 160) (len : BitVec 16)
    (valid : Bool) : Writes [.key] s { s with mem := fillKeyBuf s.mem k, keyLen := len, keyvalid := valid } where
  wf := Memory.writeBytes_wf wf _ _
  same p unlisted := by
    have outside {x : Nat} (hx : x < 0x100 ∨ 0x1A0 ≤ x) := read_fillKeyBuf wf short hx
    cases p with
    | key => exact absurd (List.mem_singleton.mpr rfl) unlisted
    | block => exact fun x _ hi => outside (by omega)
    | message => exact ⟨rfl, fun x _ hi => outside (by omega)⟩
    | rest => exact ⟨fun x lo => outside (by omega), fun x _ hi => outside (by omega)⟩
    | ctr => rfl
    | chaining => exact ⟨rfl, rfl⟩
    | results => exact ⟨rfl, rfl, rfl⟩

/-- The counter's bytes go to MSGBUF[0..8) (R175). -/
theorem writes_loadCounter {s : State} (wf : s.mem.wf = true) : Writes [.message] s (loadCounter s) where
  wf := Memory.writeBytes_wf wf _ _
  same p unlisted := by
    cases p with
    | message => exact absurd (List.mem_singleton.mpr rfl) unlisted
    | key => exact ⟨rfl, rfl, fun x lo _ => read_loadCounter wf (by omega)⟩
    | block => exact fun x _ hi => read_loadCounter wf (by omega)
    | rest => exact ⟨fun x lo => read_loadCounter wf (by omega), fun x lo _ => read_loadCounter wf (by omega)⟩
    | ctr => rfl
    | chaining => exact ⟨rfl, rfl⟩
    | results => exact ⟨rfl, rfl, rfl⟩

theorem writes_chaining {s : State} (wf : s.mem.wf = true) (hash : HashState) (len : BitVec 64) :
    Writes [.chaining] s { s with hash := hash, len := len } :=
  writes_of_mem_eq wf rfl ⟨rfl, rfl⟩ rfl (.inr rfl) (.inl (List.mem_singleton.mpr rfl)) (.inr ⟨rfl, rfl, rfl⟩)

theorem writes_truncDone {s : State} (wf : s.mem.wf = true) : Writes [.results] s (truncDone s) :=
  writes_of_mem_eq wf rfl ⟨rfl, rfl⟩ rfl (.inr rfl) (.inr ⟨rfl, rfl⟩) (.inl (List.mem_singleton.mpr rfl))

theorem writes_counter {s : State} (wf : s.mem.wf = true) (ctr : BitVec 64) : Writes [.ctr] s { s with ctr := ctr } :=
  writes_of_mem_eq wf rfl ⟨rfl, rfl⟩ rfl (.inl (List.mem_singleton.mpr rfl)) (.inr ⟨rfl, rfl⟩) (.inr ⟨rfl, rfl, rfl⟩)

/-- A hash that leaves its last block in BLK (R142, R153). -/
theorem writes_hash {s : State} (wf : s.mem.wf = true) (hash : HashState) (len : BitVec 64) {bs : List Byte}
    (block : bs.length = 64) : Writes [.chaining, .block] s (setBlock { s with hash := hash, len := len } bs) :=
  Writes.trans (writes_chaining wf hash len) (writes_setBlock (s := { s with hash := hash, len := len }) wf block)

theorem writes_hmacDone {s : State} (wf : s.mem.wf = true) : Writes [.chaining, .block] s (hmacDone s) :=
  writes_hash wf _ _ (length_hmacBlock (length_hmacInner _ _))

theorem writes_hmac {s : State} (wf : s.mem.wf = true) : Writes [.chaining, .block] s (runHmac s).state := by
  rcases runHmac_cases s with ⟨_, run⟩ | ⟨_, _, run⟩ | ⟨_, _, _, run⟩ | ⟨_, _, _, run⟩ <;> rw [run]
  · exact .refl wf _
  · exact .refl wf _
  · exact .refl wf _
  · exact writes_hmacDone wf

theorem writes_ctrTime {s : State} (wf : s.mem.wf = true) : Writes [.ctr] s (runCtrTime s).state := by
  rcases runCtrTime_cases s with ⟨_, run⟩ | ⟨_, run⟩ <;> rw [run]
  · exact .refl wf _
  · exact writes_counter wf _

theorem writes_b32Decode {s : State} (wf : s.mem.wf = true) : Writes [.key] s (runB32Decode s).state := by
  rcases runB32Decode_cases s with ⟨_, run⟩ | ⟨_, _, _, _, run⟩ | ⟨short, k, decoded, run⟩ <;> rw [run]
  · exact .refl wf _
  · exact writes_fillKeyBuf (k := []) wf (Nat.zero_le _) 0#16 false
  · exact writes_fillKeyBuf wf (decodedKey_le short decoded) _ true

/-! ### What each instruction writes -/

/-- R50's table by instruction; a composite's row is its primitives' rows (R174). -/
def written : Instr → List Part
  | .nop => []
  | .shaInit => [.chaining]
  | .shaUpdate => [.chaining]
  | .shaFinal _ => [.chaining, .block]
  | .b32Decode => [.key]
  | .hmac => [.chaining, .block]
  | .trunc => [.results]
  | .ctrTime => [.ctr]
  | .hotp => [.message, .chaining, .block, .results]
  | .totp => [.ctr, .message, .chaining, .block, .results]
  | .totpSecret => [.key, .ctr, .message, .chaining, .block, .results]
  | .srst => []
  | .illegal _ => []

theorem writes_hotp {s : State} (wf : s.mem.wf = true) : Writes (written .hotp) s (runHotp s).state :=
  writes_andThen ((writes_loadCounter wf).trans (writes_hmac (Memory.writeBytes_wf wf _ _))) fun _ => writes_truncDone

theorem writes_totp {s : State} (wf : s.mem.wf = true) : Writes (written .totp) s (runTotp s).state :=
  writes_andThen (writes_ctrTime wf) fun _ => writes_hotp

theorem writes_totpSecret {s : State} (wf : s.mem.wf = true) : Writes (written .totpSecret) s (runTotpSecret s).state :=
  writes_andThen (writes_b32Decode wf) fun _ => writes_totp

/-- No rule writes a part that its row of the table does not list. -/
theorem writes_ruleOf (i : Instr) {s : State} (wf : s.mem.wf = true) : Writes (written i) s (ruleOf i s).state := by
  cases i with
  | nop | srst | illegal => exact .refl wf _
  | shaInit | shaUpdate => exact writes_chaining wf _ _
  | shaFinal n => exact writes_hash wf _ _ (length_lastPadded_tailOf n s)
  | b32Decode => exact writes_b32Decode wf
  | hmac => exact writes_hmac wf
  | trunc => exact writes_truncDone wf
  | ctrTime => exact writes_ctrTime wf
  | hotp => exact writes_hotp wf
  | totp => exact writes_totp wf
  | totpSecret => exact writes_totpSecret wf

/-! ### The table by part -/

theorem key_mem_written {i : Instr} (writer : Part.key ∈ written i) : i ∈ ([.b32Decode, .totpSecret] : List Instr) := by
  cases i <;> simp [written] at writer ⊢

theorem message_mem_written {i : Instr} (writer : Part.message ∈ written i) :
    i ∈ ([.hotp, .totp, .totpSecret] : List Instr) := by
  cases i <;> simp [written] at writer ⊢

theorem ctr_mem_written {i : Instr} (writer : Part.ctr ∈ written i) :
    i ∈ ([.ctrTime, .totp, .totpSecret] : List Instr) := by
  cases i <;> simp [written] at writer ⊢

theorem chaining_mem_written {i : Instr} (writer : Part.chaining ∈ written i) :
    (∃ n, i = .shaFinal n) ∨ i ∈ ([.shaInit, .shaUpdate, .hmac, .hotp, .totp, .totpSecret] : List Instr) := by
  cases i <;> simp [written] at writer ⊢

theorem block_mem_written {i : Instr} (writer : Part.block ∈ written i) :
    (∃ n, i = .shaFinal n) ∨ i ∈ ([.hmac, .hotp, .totp, .totpSecret] : List Instr) := by
  cases i <;> simp [written] at writer ⊢

theorem results_mem_written {i : Instr} (writer : Part.results ∈ written i) :
    i ∈ ([.trunc, .hotp, .totp, .totpSecret] : List Instr) := by
  cases i <;> simp [written] at writer ⊢

theorem rest_not_mem_written (i : Instr) : Part.rest ∉ written i := by
  cases i <;> simp [written]

/-- Settles O13: a completion is the rule's writes and the status, and each clause is one part of R50's table. -/
theorem writersOfEachRegister : Obligations.WritersOfEachRegister := by
  intro i s t notReset wf run
  obtain rfl : complete (ruleOf i s) = t := by
    rw [exec_eq_complete notReset] at run
    exact Host.Outcome.next.inj run
  have keeps := keeps_ruleOf i s
  have writes := writes_ruleOf i wf
  obtain ⟨above, messageTail⟩ := writes.same .rest (rest_not_mem_written i)
  refine ⟨⟨keeps.secLen, keeps.period, keeps.time, keeps.cmd, keeps.irqen, keeps.ovr, above⟩, fun other => ?_,
    fun other => ?_, messageTail, fun other => ?_, fun notFinal other => ?_, fun notFinal other => ?_, fun other => ?_⟩
  · exact writes.same .key (mt key_mem_written other)
  · exact writes.same .message (mt message_mem_written other)
  · exact writes.same .ctr (mt ctr_mem_written other)
  · exact writes.same .chaining fun writer => (chaining_mem_written writer).elim (fun ⟨n, eq⟩ => notFinal n eq) other
  · exact writes.same .block fun writer => (block_mem_written writer).elim (fun ⟨n, eq⟩ => notFinal n eq) other
  · exact writes.same .results (mt results_mem_written other)

end Sys2Proof.Machine
end

section
/-! PROOFS of the SHA-1 family: the compression function as 80 rounds (R120, R121, R123, R124), and the command sequence
that hashes a byte string (R143). -/

namespace Sys2Proof.Machine

/-! ### The compression function (R123, R124) -/

theorem rounds_append (ws us : List Word) (t : Nat) (v : HashState) :
    rounds t (ws ++ us) v = rounds (t + ws.length) us (rounds t ws v) := by
  induction ws generalizing t v with
  | nil => rfl
  | cons w ws ih =>
    rw [List.cons_append, rounds, ih, rounds, List.length_cons, Nat.add_right_comm, Nat.add_assoc]

/-- The working variables before round t: what the first t words of the schedule make of H (R123). -/
def workingState (ws : List Word) (h : HashState) (t : Nat) : HashState := rounds 0 (ws.take t) h

/-- Each round takes the next word of the schedule. -/
theorem workingState_succ {ws : List Word} {t : Nat} (ht : t < ws.length) (h : HashState) :
    workingState ws h (t + 1) = roundStep t (ws.getD t 0) (workingState ws h t) := by
  have word : ws.getD t 0 = ws[t] := List.getD_eq_getElem _ _ ht
  rw [workingState, List.take_add_one, List.getElem?_eq_getElem ht, Option.toList_some, rounds_append, word,
    List.length_take_of_le (Nat.le_of_lt ht), Nat.zero_add]
  rfl

theorem workingState_length (ws : List Word) (h : HashState) : workingState ws h ws.length = rounds 0 ws h := by
  rw [workingState, List.take_length]

/-- The round function by ranges of t (R121). -/
theorem roundFunction_eq_ite {t : Nat} (ht : t < 80) (b c d : Word) :
    roundFunction t b c d =
      if t < 20 then (b &&& c) ||| (~~~b &&& d)
      else if 40 ≤ t ∧ t < 60 then (b &&& c) ||| (b &&& d) ||| (c &&& d)
      else b ^^^ c ^^^ d := by
  have quarter : t / 20 = 0 ∧ t < 20 ∨ t / 20 = 1 ∧ 20 ≤ t ∧ t < 40 ∨ t / 20 = 2 ∧ 40 ≤ t ∧ t < 60 ∨
      t / 20 = 3 ∧ 60 ≤ t := by omega
  unfold roundFunction
  rcases quarter with ⟨q, lt⟩ | ⟨q, le, lt⟩ | ⟨q, le, lt⟩ | ⟨q, le⟩ <;> rw [q]
  · rw [if_pos lt]
    rfl
  · rw [if_neg (by omega), if_neg (by omega)]
    rfl
  · rw [if_neg (by omega), if_pos ⟨le, lt⟩]
    rfl
  · rw [if_neg (by omega), if_neg (by omega)]
    rfl

/-- The round constant by ranges of t (R120). -/
theorem roundConstant_eq_ite {t : Nat} (ht : t < 80) :
    roundConstant t =
      if t < 20 then 0x5A827999#32 else if t < 40 then 0x6ED9EBA1#32
      else if t < 60 then 0x8F1BBCDC#32 else 0xCA62C1D6#32 := by
  revert t
  decide

/-- Settles O33: the working variables before each round are what the schedule's words so far make of H, and the round
step is R123's with the ranges of t written out. -/
theorem compressionFunction : Obligations.CompressionFunction := by
  intro h block len
  have words := length_schedule len
  refine ⟨workingState (schedule block) h, rfl, fun t ht => ?_, ?_⟩
  · rw [workingState_succ (words ▸ ht), roundStep, roundFunction_eq_ite ht, roundConstant_eq_ite ht,
      rotl_eq_rotateLeft (by decide), rotl_eq_rotateLeft (by decide)]
  · rw [← words, workingState_length]
    rfl

/-! ### The command sequence of a hash (R143) -/

/-- One chunk: put in BLK, then absorbed by SHA_UPDATE. -/
theorem exec_shaUpdate_setBlock {s : State} (wf : s.mem.wf = true) {chunk : List Byte} (len : chunk.length = 64) :
    exec .shaUpdate (setBlock s chunk) =
      .next { (setBlock s chunk).succeeded with hash := compress s.hash chunk, len := s.len + 512#64 } := by
  rw [exec_eq_succeeded (i := .shaUpdate) (s := setBlock s chunk) nofun rfl, block_setBlock wf len]
  rfl

/-- After the full chunks H has absorbed them and LEN has grown by their bits. -/
theorem exists_updateChunks_eq (q : Nat) {data : List Byte} (enough : 64 * q ≤ data.length) {s : State}
    (wf : s.mem.wf = true) :
    ∃ t, updateChunks q data s = .next t ∧ t.hash = absorb q s.hash data ∧ t.len = s.len + BitVec.ofNat 64 (512 * q) ∧
      t.mem.wf = true := by
  induction q generalizing data s with
  | zero => exact ⟨s, rfl, rfl, (BitVec.add_zero _).symm, wf⟩
  | succ q ih =>
    have chunk : (data.take 64).length = 64 := List.length_take_of_le (by omega)
    obtain ⟨t, run, hash, len, tWf⟩ := ih (data := data.drop 64) (by rw [List.length_drop]; omega)
      (s := { (setBlock s (data.take 64)).succeeded with
        hash := compress s.hash (data.take 64), len := s.len + 512#64 }) (Memory.writeBytes_wf wf _ _)
    refine ⟨t, ?_, hash, ?_, tWf⟩
    · rw [updateChunks, exec_shaUpdate_setBlock wf chunk]
      exact run
    · rw [len, BitVec.add_assoc, ← BitVec.ofNat_add, Nat.mul_succ, Nat.add_comm 512]

/-- The tail that SHA_FINAL reads is the one put in BLK. -/
theorem tailOf_setBlock {s : State} (wf : s.mem.wf = true) {tail : List Byte} (short : tail.length < 64) :
    tailCount (BitVec.ofNat 6 tail.length) = tail.length ∧
      tailOf (setBlock s tail) (BitVec.ofNat 6 tail.length) = tail := by
  have count : tailCount (BitVec.ofNat 6 tail.length) = tail.length := by
    rw [tailCount, BitVec.toNat_ofNat]
    exact Nat.mod_eq_of_lt short
  refine ⟨count, ?_⟩
  rw [tailOf, count]
  exact Memory.readBytes_writeBytes wf blkOff tail

/-- The bytes after the full chunks (R143). -/
def tailBytes (data : List Byte) : List Byte := data.drop (64 * (data.length / 64))

theorem length_tailBytes (data : List Byte) : (tailBytes data).length = data.length % 64 := by
  rw [tailBytes, List.length_drop]
  omega

/-- The chunks and the tail have all the bits (R143). -/
theorem bits_tailBytes (data : List Byte) :
    512 * (data.length / 64) + 8 * (tailBytes data).length = 8 * data.length := by
  rw [length_tailBytes]
  omega

/-- The whole sequence ends with H, LEN and BLK as R143's function says. -/
theorem exists_hashSequence_eq (data : List Byte) {s : State} (wf : s.mem.wf = true) :
    ∃ t, hashSequence data s = .next t ∧ t.hash = sha1State data ∧ t.len = BitVec.ofNat 64 (8 * data.length) ∧
      blockOf t = lastPadded (tailBytes data) (BitVec.ofNat 64 (8 * data.length)) ∧ t.errcode = 0x00#8 := by
  have started : exec .shaInit s = .next { s.succeeded with hash := HashState.iv, len := 0#64 } :=
    exec_eq_succeeded (i := .shaInit) nofun rfl
  obtain ⟨u, chunks, hash, len, uWf⟩ := exists_updateChunks_eq (data.length / 64) (Nat.mul_div_le data.length 64)
    (s := { s.succeeded with hash := HashState.iv, len := 0#64 }) wf
  obtain ⟨count, tail⟩ := tailOf_setBlock uWf (tail := tailBytes data)
    (by rw [length_tailBytes]; exact Nat.mod_lt _ (by decide))
  have total : finalLen (BitVec.ofNat 6 (tailBytes data).length) (setBlock u (tailBytes data)) =
      BitVec.ofNat 64 (8 * data.length) := by
    rw [finalLen, count, setBlock_len, len, BitVec.zero_add, ← BitVec.ofNat_add, bits_tailBytes]
  obtain ⟨finalHash, finalBlock⟩ := runShaFinal_of_padFinal_eq (s := setBlock u (tailBytes data))
    (Memory.writeBytes_wf uWf _ _) (by rw [tail, total])
  refine ⟨(runShaFinal (.ofNat 6 (tailBytes data).length) (setBlock u (tailBytes data))).state.succeeded, ?_, ?_, total,
    finalBlock, rfl⟩
  · rw [hashSequence, started]
    simp only [thenRun, chunks]
    exact exec_eq_succeeded nofun rfl
  · refine finalHash.trans ?_
    rw [setBlock_hash, hash, sha1State, ← tailBytes, bits_tailBytes]

/-- Settles O45: the end state of the sequence, its digest and its length. -/
theorem hashSequenceIsSha1 : Obligations.HashSequenceIsSha1 := by
  intro data s wf
  obtain ⟨t, run, hash, len, -, code⟩ := exists_hashSequence_eq data wf
  exact ⟨t, run, congrArg digestOf hash, len ▸ BitVec.toNat_ofNat .., code⟩

end Sys2Proof.Machine
end

section
/-! PROOFS of the key and code commands: B32_DECODE (R100), HMAC (R153), TRUNC's digits (R172), HOTP, TOTP and
TOTP_SECRET (R175 to R177) with the properties of their codes (R178, R179). -/

namespace Sys2Proof.Machine

/-! ### B32_DECODE (R100) -/

theorem secLenBad_eq_false {s : State} (fits : s.secLen.toNat ≤ 256) : secLenBad s = false :=
  decide_eq_false (Nat.not_lt.mpr fits)

/-- A secret that does not fit SECBUF is not read. -/
theorem runB32Decode_of_long {s : State} (long : 256 < s.secLen.toNat) :
    runB32Decode s = .raise s (.badLength .secLen s.secLen) := if_pos (decide_eq_true long)

/-- A valid secret is decoded and stored. -/
theorem runB32Decode_of_bytes {s : State} {k : List Byte} (fits : s.secLen.toNat ≤ 256)
    (decoded : base32Decode (secretOf s) = .bytes k) : runB32Decode s = .succeed (storeKey s k) := by
  rw [runB32Decode, secLenBad_eq_false fits, decoded]
  rfl

/-- A secret with an invalid byte erases the key. -/
theorem runB32Decode_of_invalid {s : State} {i : Nat} {c : Byte} (fits : s.secLen.toNat ≤ 256)
    (invalid : base32Decode (secretOf s) = .invalid i c) :
    runB32Decode s = .raise (eraseKey s) (.invalidEncoding i c) := by
  rw [runB32Decode, secLenBad_eq_false fits, invalid]
  exact if_neg Bool.false_ne_true

theorem toNat_ofNat_16 {n : Nat} (small : n ≤ 160) : (BitVec.ofNat 16 n).toNat = n := by
  rw [BitVec.toNat_ofNat]
  exact Nat.mod_eq_of_lt (by omega)

/-- KEYBUF is written and no byte outside it (R100). -/
theorem memSameOutside_fillKeyBuf {s t : State} (wf : s.mem.wf = true) {k : List Byte} (short : k.length ≤ 160)
    (mem : t.mem = fillKeyBuf s.mem k) : MemSameOutside s t 0x100 160 := fun x outside => by
  rw [mem]
  exact read_fillKeyBuf wf short outside

/-- HMAC with no key (R153). -/
theorem exec_hmac_of_noKey {s : State} (invalid : s.keyvalid = false) :
    exec .hmac s = .next (s.failed 0x03#8 0#24) := by
  have rule : runHmac s = .raise s .noKey := by
    rw [runHmac_eq, invalid]
    rfl
  exact exec_eq_failed (i := .hmac) nofun rule

theorem eraseKey_eq (s : State) :
    eraseKey s = { s with mem := (eraseKey s).mem, keyLen := 0#16, keyvalid := false } := by
  simp only [eraseKey]

/-- Settles O46: the rule stores the key, whose bytes fit KEYBUF. -/
theorem b32DecodeResult : Obligations.B32DecodeResult := by
  intro s k wf fits decoded
  have short : k.length ≤ 160 := decodedKey_le (secLenBad_eq_false fits) decoded
  exact ⟨(storeKey s k).succeeded, exec_eq_succeeded (i := .b32Decode) nofun (runB32Decode_of_bytes fits decoded), rfl,
    toNat_ofNat_16 short, keyBuf_fillKeyBuf wf short, memSameOutside_fillKeyBuf wf short rfl⟩

/-- Settles O47: the length check comes before any write, and an invalid byte leaves KEYVALID = 0, on which HMAC
raises. -/
theorem b32DecodeErrors : Obligations.B32DecodeErrors := by
  refine ⟨fun s long => ?_, fun s i c wf fits invalid => ?_⟩
  · exact exec_eq_failed (i := .b32Decode) nofun (runB32Decode_of_long long)
  · have run : exec .b32Decode s = .next ((eraseKey s).failed 0x02#8 (c ++ BitVec.ofNat 16 i)) := by
      rw [exec_eq_complete (i := .b32Decode) nofun, ruleOf, runB32Decode_of_invalid fits invalid, complete_raise]
      rfl
    have frame := eraseKey_eq s
    have mem := eraseKey_mem s
    have erased := keyBuf_fillKeyBuf wf (k := []) (Nat.zero_le _)
    have outside {t : State} := memSameOutside_fillKeyBuf (t := t) wf (k := []) (Nat.zero_le _)
    rw [← mem] at erased
    generalize eraseKey s = u at run frame mem erased
    refine ⟨u.failed 0x02#8 (c ++ BitVec.ofNat 16 i), run, ?_, erased, outside mem, exec_hmac_of_noKey ?_⟩
    · rw [frame]
      rfl
    · rw [frame]
      rfl

/-! ### HMAC (R153) -/

theorem keyLenBad_eq_false {s : State} (fits : s.keyLen.toNat ≤ 160) : keyLenBad s = false :=
  decide_eq_false (Nat.not_lt.mpr fits)

theorem msgLenBad_eq_false {s : State} (fits : s.msgLen.toNat ≤ 64) : msgLenBad s = false :=
  decide_eq_false (Nat.not_lt.mpr fits)

/-- HMAC of a valid key and a message that fits MSGBUF. -/
theorem runHmac_of_valid {s : State} (valid : s.keyvalid = true) (key : s.keyLen.toNat ≤ 160)
    (msg : s.msgLen.toNat ≤ 64) :
    runHmac s = .succeed (hmacDone s) := by
  rw [runHmac_eq, valid, keyLenBad_eq_false key, msgLenBad_eq_false msg]
  rfl

theorem exec_hmac_of_valid {s : State} (valid : s.keyvalid = true) (key : s.keyLen.toNat ≤ 160)
    (msg : s.msgLen.toNat ≤ 64) : exec .hmac s = .next (hmacDone s).succeeded :=
  exec_eq_succeeded (i := .hmac) nofun (runHmac_of_valid valid key msg)

theorem hmacDone_mem (s : State) :
    (hmacDone s).mem = s.mem.writeBytes blkOff (hmacBlock (hmacInner (keyOf s) (messageOf s))) := by
  simp only [hmacDone, setBlock]

theorem hmacDone_eq (s : State) :
    hmacDone s = { s with hash := (hmacDone s).hash, len := 672#64, mem := (hmacDone s).mem } := by
  simp only [hmacDone, setBlock, hmacLen]

theorem hash_hmacDone (s : State) : (hmacDone s).hash = sha1State (hmacOuterMessage (keyOf s) (messageOf s)) := by
  simp only [hmacDone, setBlock]

theorem digestOf_hmacDone (s : State) : digestOf (hmacDone s).hash = hmacSha1 (keyOf s) (messageOf s) := by
  rw [hash_hmacDone, hmacSha1, sha1]

/-- A successful HMAC leaves the last block of its outer hash in BLK. -/
theorem block_hmacDone {s : State} (wf : s.mem.wf = true) :
    blockOf (hmacDone s) = hmacBlock (hmacInner (keyOf s) (messageOf s)) := by
  have stored := Memory.readBytes_writeBytes wf blkOff (hmacBlock (hmacInner (keyOf s) (messageOf s)))
  rw [length_hmacBlock (length_hmacInner _ _)] at stored
  rw [blockOf, hmacDone_mem]
  exact stored

/-- BLK is the only memory that a successful HMAC writes. -/
theorem read_hmacDone {s : State} (wf : s.mem.wf = true) {x : Nat} (outside : x < 0x080 ∨ 0x0C0 ≤ x) :
    (hmacDone s).mem.read x = s.mem.read x := by
  rw [hmacDone_mem, Memory.read_writeBytes_outside wf]
  rw [length_hmacBlock (length_hmacInner _ _)]
  exact outside

/-- Settles O49: each check stands before HMAC's success, after those before it. -/
theorem hmacErrors : Obligations.HmacErrors := by
  intro s
  refine ⟨exec_hmac_of_noKey, fun valid long => ?_, fun valid fits long => ?_⟩
  · have rule : runHmac s = .raise s (.badLength .keyLen s.keyLen) := by
      rw [runHmac_eq, valid, show keyLenBad s = true from decide_eq_true long]
      rfl
    exact exec_eq_failed (i := .hmac) nofun rule
  · have rule : runHmac s = .raise s (.badLength .msgLen s.msgLen) := by
      rw [runHmac_eq, valid, keyLenBad_eq_false fits, show msgLenBad s = true from decide_eq_true long]
      rfl
    exact exec_eq_failed (i := .hmac) nofun rule

/-- Settles O48: the rule's state of success, the functions of R150 to R152 written out. -/
theorem hmacResult : Obligations.HmacResult := by
  intro s wf valid keyFits msgFits key msg k0 inner
  have run := exec_hmac_of_valid valid keyFits msgFits
  have frame := hmacDone_eq s
  have digest := digestOf_hmacDone s
  have block := block_hmacDone wf
  have outside : MemSameOutside s (hmacDone s) 0x080 64 := fun x => read_hmacDone wf
  have innerEq : hmacInner (keyOf s) (messageOf s) = inner := rfl
  generalize hmacDone s = t at run frame digest block outside
  refine ⟨t.succeeded, run, ?_, digest, innerEq ▸ block, outside⟩
  rw [frame]
  rfl

/-- The outer hash absorbs one full block, the outer pad, and its tail is the inner digest (R152). -/
theorem tailBytes_hmacOuterMessage (key msg : List Byte) :
    tailBytes (hmacOuterMessage key msg) = hmacInner key msg := by
  have pad : (xorBytes (normKey key) opad).length = 64 := by simp
  rw [tailBytes, length_hmacOuterMessage, hmacOuterMessage, List.drop_left' (i := 64 * (84 / 64)) pad]

theorem lastPadded_of_le {tail : List Byte} (short : tail.length ≤ 55) (l : BitVec 64) :
    lastPadded tail l = tail ++ [0x80#8] ++ zeros (55 - tail.length) ++ bytesBE64 l := by
  rw [lastPadded, padFinal_of_le short]
  rfl

@[simp] theorem blockOf_succeeded (s : State) : blockOf s.succeeded = blockOf s := rfl

/-- Settles O50: the command sequence ends with the same H and LEN, and its last block is the padded inner digest. -/
theorem hmacIsOuterHashAsCommands : Obligations.HmacIsOuterHashAsCommands := by
  intro s wf valid keyFits msgFits
  obtain ⟨u, run, hash, len, block, -⟩ := exists_hashSequence_eq (hmacOuterMessage (keyOf s) (messageOf s)) wf
  have inner := length_hmacInner (keyOf s) (messageOf s)
  refine ⟨(hmacDone s).succeeded, u, exec_hmac_of_valid valid keyFits msgFits, run, hash.symm, ?_, ?_⟩
  · rw [len, length_hmacOuterMessage]
    rfl
  · rw [block, tailBytes_hmacOuterMessage, lastPadded_of_le (by rw [inner]; decide), length_hmacOuterMessage, inner,
      blockOf_succeeded, block_hmacDone wf]
    rfl

/-! ### The digits of a code (R172) -/

/-- A digit's character is its value above `0`. -/
theorem toNat_digitChar (code p : Nat) : (digitChar code p).toNat = 0x30 + code / 10 ^ p % 10 := by
  rw [digitChar, BitVec.toNat_ofNat]
  omega

/-- Six digits write every number below 10^6. -/
theorem eq_sum_digits {n : Nat} (small : n < 1000000) :
    n = n / 10 ^ 5 % 10 * 100000 + n / 10 ^ 4 % 10 * 10000 + n / 10 ^ 3 % 10 * 1000 + n / 10 ^ 2 % 10 * 100 +
      n / 10 ^ 1 % 10 * 10 + n / 10 ^ 0 % 10 := by
  omega

/-- Settles O53: each character is a digit of CODE, which is below 10^6. -/
theorem outputShape : Obligations.OutputShape := by
  intro s
  refine ⟨(truncDone s).succeeded, exec_eq_succeeded (i := .trunc) nofun (runTrunc_eq s), _, _, _, _, _, _, rfl, rfl,
    ?_, ?_⟩
  · intro c listed
    have digit (code p : Nat) : 0x30 ≤ (digitChar code p).toNat ∧ (digitChar code p).toNat ≤ 0x39 := by
      rw [toNat_digitChar]
      omega
    simp only [List.mem_cons, List.not_mem_nil, or_false] at listed
    rcases listed with rfl | rfl | rfl | rfl | rfl | rfl <;> exact digit _ _
  · have small : (codeOf (truncate (digestOf s.hash))).toNat < 1000000 := by
      rw [toNat_codeOf]
      exact Nat.mod_lt _ (by decide)
    simp only [State.succeeded, truncDone, formatCode, toNat_digitChar, Nat.add_sub_cancel_left]
    exact eq_sum_digits small

end Sys2Proof.Machine
end

section
/-! PROOFS of the composite code commands: HOTP, TOTP and TOTP_SECRET (R175 to R177), and the properties of their codes
(R178, R179). -/

namespace Sys2Proof.Machine

/-! ### HOTP (R175) -/

/-- The state of a successful HOTP. -/
def hotpDone (s : State) : State := truncDone (hmacDone (loadCounter s))

theorem runHotp_of_valid {s : State} (valid : s.keyvalid = true) (key : s.keyLen.toNat ≤ 160) :
    runHotp s = .succeed (hotpDone s) := by
  rw [runHotp, runHmac_of_valid (s := loadCounter s) valid key (Nat.le_of_ble_eq_true rfl)]
  rfl

/-- `t` is `s` after the code of its counter under a key was made: the results, H, LEN, BLK, MSGBUF[0..8), MSG_LEN and
nothing else (R175). -/
structure HasCode (key : List Byte) (s t : State) : Prop where
  frame : t = { s with
    msgLen := 8#16, hash := sha1State (hmacOuterMessage key (bytesBE64 s.ctr)), len := 672#64, mem := t.mem
    dbc := truncate (hmacSha1 key (bytesBE64 s.ctr)), code := codeOf (truncate (hmacSha1 key (bytesBE64 s.ctr)))
    ascii := formatCode (codeOf (truncate (hmacSha1 key (bytesBE64 s.ctr)))) }
  counter : t.mem.readBytes 0x0C0 8 = bytesBE64 s.ctr
  block : t.mem.readBytes 0x080 64 = hmacBlock (hmacInner key (bytesBE64 s.ctr))
  outside : ∀ x, x < 0x080 ∨ 0x0C8 ≤ x → t.mem.read x = s.mem.read x

theorem hasCode_hotpDone {s : State} (wf : s.mem.wf = true) : HasCode (keyOf s) s (hotpDone s) := by
  have loadWf : (loadCounter s).mem.wf = true := Memory.writeBytes_wf wf _ _
  have block := block_hmacDone loadWf
  have reads {x : Nat} (hx : x < 0x080 ∨ 0x0C0 ≤ x) := read_hmacDone loadWf hx
  have frame := hmacDone_eq (loadCounter s)
  have digest := digestOf_hmacDone (loadCounter s)
  have hash := hash_hmacDone (loadCounter s)
  rw [keyOf_loadCounter wf, messageOf_loadCounter wf] at block digest hash
  unfold hotpDone
  generalize hmacDone (loadCounter s) = u at block reads frame digest hash
  refine ⟨?_, ?_, block, fun x outside => ?_⟩
  · rw [truncDone, digest, frame, hash]
    rfl
  · refine Eq.trans (Memory.readBytes_congr fun x lo _ => reads (.inr lo)) ?_
    exact Memory.readBytes_writeBytes wf msgOff (bytesBE64 s.ctr)
  · exact (reads (by omega)).trans (read_loadCounter wf (by omega))

theorem HasCode.digest {key : List Byte} {s t : State} (h : HasCode key s t) :
    digestOf t.hash = hmacSha1 key (bytesBE64 s.ctr) := by
  rw [h.frame]
  rfl

/-- Settles O54: HMAC on the loaded counter finds the key and an 8-byte message, and TRUNC follows. -/
theorem hotpResult : Obligations.HotpResult := by
  intro s wf valid keyFits digest
  have run : exec .hotp s = .next (hotpDone s).succeeded :=
    exec_eq_succeeded (i := .hotp) nofun (runHotp_of_valid valid keyFits)
  have made := hasCode_hotpDone wf
  generalize hotpDone s = t at run made
  refine ⟨t.succeeded, run, ?_, made.digest, made.counter, made.block, made.outside⟩
  rw [made.frame]
  rfl

/-! ### TOTP (R176) -/

/-- The state in which CTR_TIME leaves a TOTP that goes on. -/
def withCounter (s : State) : State := { s with ctr := counterOf s.time s.period }

theorem runTotp_of_period {s : State} (nonzero : s.period ≠ 0#32) : runTotp s = runHotp (withCounter s) := by
  rw [runTotp, runCtrTime, if_neg nonzero]
  rfl

theorem runTotp_of_no_period {s : State} (zero : s.period = 0#32) : runTotp s = .raise s .divZero := by
  rw [runTotp, runCtrTime, if_pos zero]
  rfl

/-- Settles O56: with PERIOD ≠ 0 it is HOTP of the window's number, and with PERIOD = 0 CTR_TIME raises first. -/
theorem totpResult : Obligations.TotpResult := by
  intro s
  refine ⟨?_, fun zero => exec_eq_failed (i := .totp) nofun (runTotp_of_no_period zero)⟩
  intro wf nonzero valid keyFits ctr digest
  have rule : runTotp s = .succeed (hotpDone (withCounter s)) :=
    (runTotp_of_period nonzero).trans (runHotp_of_valid valid keyFits)
  have run : exec .totp s = .next (hotpDone (withCounter s)).succeeded := exec_eq_succeeded (i := .totp) nofun rule
  have made : HasCode (keyOf s) (withCounter s) (hotpDone (withCounter s)) :=
    hasCode_hotpDone (s := withCounter s) wf
  generalize hotpDone (withCounter s) = t at run made
  refine ⟨t.succeeded, run, ?_, made.digest, made.outside⟩
  rw [made.frame]
  rfl

/-! ### TOTP_SECRET (R177) -/

/-- The state in which B32_DECODE and CTR_TIME leave a TOTP_SECRET that goes on. -/
def withKeyAndCounter (s : State) (k : List Byte) : State := withCounter (storeKey s k)

theorem keyOf_withKeyAndCounter {s : State} (wf : s.mem.wf = true) {k : List Byte} (short : k.length ≤ 160) :
    keyOf (withKeyAndCounter s k) = k := keyOf_storeKey wf short

theorem runTotpSecret_of_bytes {s : State} {k : List Byte} (fits : s.secLen.toNat ≤ 256)
    (decoded : base32Decode (secretOf s) = .bytes k) : runTotpSecret s = runTotp (storeKey s k) := by
  rw [runTotpSecret, runB32Decode_of_bytes fits decoded]
  rfl

/-- The whole pipeline of a valid secret: the decoded key is one that HMAC finds. -/
theorem runTotpSecret_of_period {s : State} {k : List Byte} (fits : s.secLen.toNat ≤ 256)
    (decoded : base32Decode (secretOf s) = .bytes k) (nonzero : s.period ≠ 0#32) :
    runTotpSecret s = .succeed (hotpDone (withKeyAndCounter s k)) := by
  have short : k.length ≤ 160 := decodedKey_le (secLenBad_eq_false fits) decoded
  rw [runTotpSecret_of_bytes fits decoded, runTotp_of_period (s := storeKey s k) nonzero]
  exact runHotp_of_valid rfl ((toNat_ofNat_16 short).trans_le short)

theorem hasCode_totpSecret {s : State} (wf : s.mem.wf = true) {k : List Byte} (short : k.length ≤ 160) :
    HasCode k (withKeyAndCounter s k) (hotpDone (withKeyAndCounter s k)) := by
  have made := hasCode_hotpDone (s := withKeyAndCounter s k) (Memory.writeBytes_wf wf _ _)
  rwa [keyOf_withKeyAndCounter wf short] at made

/-- Settles O57: the code is that of the decoded key and the window's number; MSGBUF and BLK lie below KEYBUF. -/
theorem totpSecretResult : Obligations.TotpSecretResult := by
  intro s k wf fits nonzero decoded ctr digest
  have short : k.length ≤ 160 := decodedKey_le (secLenBad_eq_false fits) decoded
  have run : exec .totpSecret s = .next (hotpDone (withKeyAndCounter s k)).succeeded :=
    exec_eq_succeeded (i := .totpSecret) nofun (runTotpSecret_of_period fits decoded nonzero)
  have made := hasCode_totpSecret wf short
  generalize hotpDone (withKeyAndCounter s k) = t at run made
  refine ⟨t.succeeded, run, ?_, ?_, ?_, made.digest, fun x away => ?_⟩
  · rw [made.frame]
    rfl
  · rw [made.frame]
    exact toNat_ofNat_16 short
  · exact (Memory.readBytes_congr fun x lo _ => made.outside x (by omega)).trans (keyBuf_fillKeyBuf wf short)
  · exact (made.outside x (by omega)).trans (read_fillKeyBuf wf short (by omega))

/-! ### The properties of the codes (R178, R179) -/

/-- Every time of a window has the window's number (R179). -/
theorem toNat_counterOf_of_window {k : Nat} {x : BitVec 64} {period : Word} (lo : k * period.toNat ≤ x.toNat)
    (hi : x.toNat < (k + 1) * period.toNat) : (counterOf x period).toNat = k := by
  rw [toNat_counterOf]
  exact Nat.div_eq_of_lt_le lo hi

/-- Settles O58: times of one window have one number, and HOTP does not read TIME. -/
theorem windowStability : Obligations.WindowStability := by
  intro s k x y nonzero xLo xHi yLo yHi
  have xWindow := toNat_counterOf_of_window xLo xHi
  have same : counterOf x s.period = counterOf y s.period :=
    BitVec.eq_of_toNat_eq (xWindow.trans (toNat_counterOf_of_window yLo yHi).symm)
  have veiled : withCounter { s with time := x } =
      State.veil { s with time := x } (withCounter { s with time := y }) := by
    simp only [withCounter, State.veil, same]
  refine ⟨⟨_, exec_eq_succeeded (i := .ctrTime) nofun (if_neg nonzero), xWindow⟩, _, _,
    exec_eq_complete (i := .totp) nofun _, exec_eq_complete (i := .totp) nofun _, ?_⟩
  rw [ruleOf, ruleOf, runTotp_of_period (s := { s with time := x }) nonzero,
    runTotp_of_period (s := { s with time := y }) nonzero, veiled, runHotp_veil]
  rfl

/-- Two runs report the same error, or success with the same results. -/
def SameAnswer (r r' : Ran) : Prop :=
  r.code = r'.code ∧ r.info = r'.info ∧
    (r.code = 0x00#8 → r.state.ctr = r'.state.ctr ∧ r.state.hash = r'.state.hash ∧ r.state.len = r'.state.len ∧
      r.state.keyLen = r'.state.keyLen ∧ r.state.dbc = r'.state.dbc ∧ r.state.code = r'.state.code ∧
      r.state.ascii = r'.state.ascii)

theorem sameAnswer_raise (s t : State) (e : CmdError) : SameAnswer (.raise s e) (.raise t e) :=
  ⟨rfl, rfl, fun success => absurd success (errorCode_ne_zero e)⟩

/-- The code of one key and one counter is one code (R178). -/
theorem sameAnswer_of_hasCode {key : List Byte} {s t u w : State} (sCode : HasCode key s u) (tCode : HasCode key t w)
    (ctr : s.ctr = t.ctr) (keyLen : s.keyLen = t.keyLen) : SameAnswer (.succeed u) (.succeed w) := by
  obtain ⟨uFrame, -, -, -⟩ := sCode
  obtain ⟨wFrame, -, -, -⟩ := tCode
  rw [← ctr] at wFrame
  rw [uFrame, wFrame]
  exact ⟨rfl, rfl, fun _ => ⟨rfl, rfl, rfl, keyLen, rfl, rfl, rfl⟩⟩

/-- TOTP_SECRET's answer, by the secret and PERIOD: the decoded secret alone says which error is raised first, and of a
valid one the code is that of the key and the window's number (R178). -/
theorem sameAnswer_runTotpSecret {s t : State} (sWf : s.mem.wf = true) (tWf : t.mem.wf = true)
    (secLen : s.secLen = t.secLen)
    (secret : secretOf s = secretOf t) (time : s.time = t.time) (period : s.period = t.period) :
    SameAnswer (runTotpSecret s) (runTotpSecret t) := by
  by_cases fits : s.secLen.toNat ≤ 256
  · have tFits : t.secLen.toNat ≤ 256 := secLen ▸ fits
    cases decoded : base32Decode (secretOf s) with
    | invalid i c =>
      rw [runTotpSecret, runTotpSecret, runB32Decode_of_invalid fits decoded,
        runB32Decode_of_invalid tFits (secret ▸ decoded)]
      exact sameAnswer_raise _ _ _
    | bytes k =>
      have tDecoded : base32Decode (secretOf t) = .bytes k := secret ▸ decoded
      by_cases zero : s.period = 0#32
      · rw [runTotpSecret_of_bytes fits decoded, runTotpSecret_of_bytes tFits tDecoded,
          runTotp_of_no_period (s := storeKey s k) zero, runTotp_of_no_period (s := storeKey t k) (period ▸ zero)]
        exact sameAnswer_raise _ _ _
      · have short : k.length ≤ 160 := decodedKey_le (secLenBad_eq_false fits) decoded
        have ctr : (withKeyAndCounter s k).ctr = (withKeyAndCounter t k).ctr := congrArg₂ counterOf time period
        rw [runTotpSecret_of_period fits decoded zero, runTotpSecret_of_period tFits tDecoded (period ▸ zero)]
        exact sameAnswer_of_hasCode (hasCode_totpSecret sWf short) (hasCode_totpSecret tWf short) ctr rfl
  · have rule {u : State} (long : ¬ u.secLen.toNat ≤ 256) :
        runTotpSecret u = .raise u (.badLength .secLen u.secLen) := by
      rw [runTotpSecret, runB32Decode_of_long (Nat.not_le.mp long)]
      rfl
    rw [rule fits, rule (secLen ▸ fits), secLen]
    exact sameAnswer_raise _ _ _

/-- Settles O59: the completion shows the rule's answer. -/
theorem totpSecretDeterminism : Obligations.TotpSecretDeterminism := fun s t sWf tWf secLen secret time period =>
  ⟨_, _, exec_eq_complete (i := .totpSecret) nofun s, exec_eq_complete (i := .totpSecret) nofun t,
    sameAnswer_runTotpSecret sWf tWf secLen secret time period⟩

end Sys2Proof.Machine
end

section
/-! PROOFS of the Base32 family: the alphabet (R102, R103), the first invalid byte (R106), the length and the bits of
what is decoded (R104, R105), and the round trip with RFC 4648's encoder (R108). -/

namespace Sys2Proof.Machine

/-! ### The alphabet in byte values (R102, R103) -/

/-- A byte of the alphabet, in either case. -/
def InAlphabet (c : Byte) : Prop :=
  (0x41 ≤ c.toNat ∧ c.toNat ≤ 0x5A) ∨ (0x61 ≤ c.toNat ∧ c.toNat ≤ 0x7A) ∨ (0x32 ≤ c.toNat ∧ c.toNat ≤ 0x37)

theorem foldCase_of_not_lower {c : Byte} (other : ¬ (0x61 ≤ c.toNat ∧ c.toNat ≤ 0x7A)) : foldCase c = c := if_neg other

theorem toNat_foldCase_lower {c : Byte} (lo : 0x61 ≤ c.toNat) (hi : c.toNat ≤ 0x7A) :
    (foldCase c).toNat = c.toNat - 0x20 := by
  rw [foldCase, if_pos ⟨lo, hi⟩]
  exact BitVec.toNat_sub_of_le (BitVec.le_def.mpr (le_trans (by decide) lo))

theorem alphabetValue_upper {c : Byte} (lo : 0x41 ≤ c.toNat) (hi : c.toNat ≤ 0x5A) :
    alphabetValue (foldCase c) = some (c.toNat - 0x41) := by
  rw [foldCase_of_not_lower (by omega), alphabetValue, if_pos ⟨lo, hi⟩]

theorem alphabetValue_lower {c : Byte} (lo : 0x61 ≤ c.toNat) (hi : c.toNat ≤ 0x7A) :
    alphabetValue (foldCase c) = some (c.toNat - 0x61) := by
  rw [alphabetValue, toNat_foldCase_lower lo hi, if_pos (by omega), Nat.sub_sub]

theorem alphabetValue_digit {c : Byte} (lo : 0x32 ≤ c.toNat) (hi : c.toNat ≤ 0x37) :
    alphabetValue (foldCase c) = some (c.toNat - 0x32 + 26) := by
  rw [foldCase_of_not_lower (by omega), alphabetValue, if_neg (by omega), if_pos ⟨lo, hi⟩]

/-- Every byte outside the three ranges is invalid, and no byte inside them. -/
theorem alphabetValue_eq_none_iff (c : Byte) : alphabetValue (foldCase c) = none ↔ ¬ InAlphabet c := by
  constructor
  · rintro invalid (⟨lo, hi⟩ | ⟨lo, hi⟩ | ⟨lo, hi⟩)
    · rw [alphabetValue_upper lo hi] at invalid
      cases invalid
    · rw [alphabetValue_lower lo hi] at invalid
      cases invalid
    · rw [alphabetValue_digit lo hi] at invalid
      cases invalid
  · intro outside
    unfold InAlphabet at outside
    rw [foldCase_of_not_lower (by omega), alphabetValue, if_neg (by omega), if_neg (by omega)]

theorem inAlphabet_of_some {c : Byte} {v : Nat} (value : alphabetValue (foldCase c) = some v) : InAlphabet c := by
  by_contra outside
  rw [(alphabetValue_eq_none_iff c).mpr outside] at value
  cases value

/-! ### The first invalid byte (R106) -/

/-- The scan fails exactly at the first byte outside the alphabet, at its index from the scan's start on. -/
theorem scan_eq_invalid_iff {s : List Byte} {i acc nbits j : Nat} {k : List Byte} {c : Byte} :
    scan s i acc nbits k = .invalid j c ↔
      ∃ m, j = i + m ∧ s[m]? = some c ∧ ¬ InAlphabet c ∧ ∀ l < m, ∃ d, s[l]? = some d ∧ InAlphabet d := by
  induction s generalizing i acc nbits k with
  | nil => exact ⟨nofun, fun ⟨_, _, found, _⟩ => nomatch found⟩
  | cons d rest ih =>
    cases value : alphabetValue (foldCase d) with
    | none =>
      have outside := (alphabetValue_eq_none_iff d).mp value
      rw [scan_invalid value]
      constructor
      · rintro ⟨⟩
        exact ⟨0, rfl, rfl, outside, fun _ before => absurd before (Nat.not_lt_zero _)⟩
      · rintro ⟨m, rfl, found, _, before⟩
        cases m with
        | zero =>
          cases found
          rfl
        | succ m =>
          obtain ⟨_, first, inside⟩ := before 0 (Nat.succ_pos m)
          cases first
          exact absurd inside outside
    | some v =>
      obtain ⟨acc', nbits', k', goesOn⟩ := exists_scan_cons_eq_scan rest value i acc nbits k
      rw [goesOn, ih]
      constructor
      · rintro ⟨m, rfl, found, outside, before⟩
        refine ⟨m + 1, by omega, found, outside, fun l lt => ?_⟩
        cases l with
        | zero => exact ⟨d, rfl, inAlphabet_of_some value⟩
        | succ l => exact before l (Nat.lt_of_succ_lt_succ lt)
      · rintro ⟨m, rfl, found, outside, before⟩
        cases m with
        | zero =>
          cases found
          exact absurd (inAlphabet_of_some value) outside
        | succ m => exact ⟨m, by omega, found, outside, fun l lt => before (l + 1) (Nat.succ_lt_succ lt)⟩

theorem base32Decode_eq_invalid_iff (s : List Byte) (i : Nat) (c : Byte) :
    base32Decode s = .invalid i c ↔
      (stripPad s)[i]? = some c ∧ ¬ InAlphabet c ∧ ∀ j < i, ∃ d, (stripPad s)[j]? = some d ∧ InAlphabet d := by
  refine scan_eq_invalid_iff.trans ⟨?_, fun found => ⟨i, (Nat.zero_add i).symm, found⟩⟩
  rintro ⟨m, rfl, found⟩
  rwa [Nat.zero_add]

/-- Settles O38: the fold and the two rows of the alphabet, by ranges; and where the scan stops. -/
theorem firstInvalidByte : Obligations.FirstInvalidByte :=
  ⟨fun c => ⟨alphabetValue_upper, alphabetValue_lower, alphabetValue_digit, alphabetValue_eq_none_iff c⟩,
    base32Decode_eq_invalid_iff⟩

/-! ### The length of what is decoded (R105) -/

/-- A scan of characters of the alphabet puts out bytes. -/
theorem exists_scan_eq_bytes {s : List Byte} (valid : ∀ c ∈ s, InAlphabet c) (i acc nbits : Nat) (k : List Byte) :
    ∃ out, scan s i acc nbits k = .bytes out := by
  cases run : scan s i acc nbits k with
  | bytes out => exact ⟨out, rfl⟩
  | invalid j c =>
    obtain ⟨m, -, found, outside, -⟩ := scan_eq_invalid_iff.mp run
    exact absurd (valid c (List.mem_of_getElem? found)) outside

/-- Settles O37: such a secret has no byte at which the scan fails, and `scan_length` counts what it puts out. -/
theorem decodedLength : Obligations.DecodedLength := by
  intro s allValid
  obtain ⟨k, run⟩ := exists_scan_eq_bytes allValid 0 0 0 []
  have len := scan_length (by decide) run
  rw [List.length_nil, Nat.zero_add, Nat.zero_add] at len
  exact ⟨k, run, len, decoded_length_le run⟩

/-! ### Bit strings, most significant bit first (R10, R104) -/

/-- The lowest `w` bits of a number, the most significant first. -/
def bitsOf (w x : Nat) : List Bool := (List.range w).map fun j => x.testBit (w - 1 - j)

@[simp] theorem length_bitsOf (w x : Nat) : (bitsOf w x).length = w := by simp [bitsOf]

/-- The upper `a` bits, then the lower `b`. -/
theorem bitsOf_add (a b x : Nat) : bitsOf (a + b) x = bitsOf a (x / 2 ^ b) ++ bitsOf b x := by
  simp only [bitsOf, List.range_add, List.map_append, List.map_map]
  congr 1
  · refine List.map_congr_left fun j mem => ?_
    have lt := List.mem_range.mp mem
    rw [Nat.testBit_div_two_pow, show a + b - 1 - j = a - 1 - j + b by omega]
  · refine List.map_congr_left fun j mem => ?_
    rw [Function.comp_apply, show a + b - 1 - (a + j) = b - 1 - j by omega]

/-- The bits that are kept do not depend on the higher ones. -/
theorem bitsOf_mod {w n : Nat} (le : w ≤ n) (x : Nat) : bitsOf w (x % 2 ^ n) = bitsOf w x := by
  refine List.map_congr_left fun j mem => ?_
  have lt := List.mem_range.mp mem
  rw [Nat.testBit_mod_two_pow, decide_eq_true (by omega), Bool.true_and]

/-- A number and `b` more bits. -/
theorem bitsOf_mul_add (a : Nat) {b y : Nat} (lt : y < 2 ^ b) (x : Nat) :
    bitsOf (a + b) (x * 2 ^ b + y) = bitsOf a x ++ bitsOf b y := by
  have quotient : (x * 2 ^ b + y) / 2 ^ b = x := by
    rw [Nat.mul_comm, Nat.mul_add_div (Nat.two_pow_pos b), Nat.div_eq_of_lt lt, Nat.add_zero]
  have remainder : (x * 2 ^ b + y) % 2 ^ b = y := by
    rw [Nat.mul_comm, Nat.mul_add_mod, Nat.mod_eq_of_lt lt]
  rw [bitsOf_add, quotient, ← bitsOf_mod (Nat.le_refl b) (x * 2 ^ b + y), remainder]

theorem bitsOf_injective {w x y : Nat} (xLt : x < 2 ^ w) (yLt : y < 2 ^ w) (same : bitsOf w x = bitsOf w y) :
    x = y := by
  refine Nat.eq_of_testBit_eq fun i => ?_
  by_cases lt : i < w
  · have bit := List.map_inj_left.mp same (w - 1 - i) (List.mem_range.mpr (by omega))
    rwa [show w - 1 - (w - 1 - i) = i by omega] at bit
  · have high : 2 ^ w ≤ 2 ^ i := Nat.pow_le_pow_right (by decide) (Nat.not_lt.mp lt)
    rw [Nat.testBit_lt_two_pow (xLt.trans_le high), Nat.testBit_lt_two_pow (yLt.trans_le high)]

/-- The bits of a byte string. -/
def bytesBits (k : List Byte) : List Bool := k.flatMap fun b => bitsOf 8 b.toNat

@[simp] theorem length_bytesBits (k : List Byte) : (bytesBits k).length = 8 * k.length := by
  simp [bytesBits, List.length_flatMap, Nat.mul_comm]

theorem bytesBits_injective {k l : List Byte} (same : bytesBits k = bytesBits l) : k = l := by
  induction k generalizing l with
  | nil =>
    have := congrArg List.length same
    rw [length_bytesBits, length_bytesBits] at this
    exact (List.eq_nil_of_length_eq_zero (by simpa using this.symm)).symm
  | cons b k ih =>
    cases l with
    | nil =>
      have := congrArg List.length same
      simp at this
    | cons c l =>
      obtain ⟨head, tail⟩ := List.append_inj same (by simp)
      rw [BitVec.eq_of_toNat_eq (bitsOf_injective b.isLt c.isLt head), ih tail]

/-! ### The decoded bits (R104) -/

/-- The 5-bit value of a character (R103). -/
def charValue (c : Byte) : Nat := (alphabetValue (foldCase c)).getD 0

theorem charValue_eq_of_some {c : Byte} {v : Nat} (value : alphabetValue (foldCase c) = some v) : charValue c = v := by
  rw [charValue, value, Option.getD_some]

/-- The bits of the characters of a secret. -/
def charsBits (s : List Byte) : List Bool := s.flatMap fun c => bitsOf 5 (charValue c)

@[simp] theorem length_charsBits (s : List Byte) : (charsBits s).length = 5 * s.length := by
  simp [charsBits, List.length_flatMap, Nat.mul_comm]

theorem bytesBits_concat_ofNat (k : List Byte) (q : Nat) :
    bytesBits (k ++ [BitVec.ofNat 8 q]) = bytesBits k ++ bitsOf 8 q := by
  rw [bytesBits, List.flatMap_append, List.flatMap_singleton, BitVec.toNat_ofNat, bitsOf_mod (Nat.le_refl 8)]
  rfl

/-- The scan moves bits: those put out, those pending and those of the characters to come, in this order, are what
comes out and the bits it discards. -/
theorem bytesBits_scan {s : List Byte} {i acc nbits : Nat} {k out : List Byte} (few : nbits < 8)
    (run : scan s i acc nbits k = .bytes out) :
    ∃ discarded, bytesBits k ++ (bitsOf nbits acc ++ charsBits s) = bytesBits out ++ discarded := by
  induction s generalizing i acc nbits k with
  | nil =>
    cases run
    exact ⟨_, rfl⟩
  | cons c rest ih =>
    cases value : alphabetValue (foldCase c) with
    | none =>
      rw [scan_invalid value] at run
      cases run
    | some v =>
      have appended : bitsOf nbits acc ++ charsBits (c :: rest) =
          bitsOf (nbits + 5) (acc * 32 + v) ++ charsBits rest := by
        have joined : bitsOf (nbits + 5) (acc * 32 + v) = bitsOf nbits acc ++ bitsOf 5 v :=
          bitsOf_mul_add nbits (alphabetValue_lt value) acc
        rw [joined, charsBits, List.flatMap_cons, charValue_eq_of_some value, List.append_assoc]
        rfl
      rw [appended]
      by_cases keep : nbits < 3
      · rw [scan_keep value keep] at run
        exact ih (by omega) run
      · rw [scan_emit value (by omega)] at run
        obtain ⟨discarded, moved⟩ := ih (by omega) run
        refine ⟨discarded, moved ▸ ?_⟩
        rw [bytesBits_concat_ofNat, bitsOf_mod (Nat.le_refl _), show nbits + 5 = 8 + (nbits - 3) by omega, bitsOf_add,
          List.append_assoc, List.append_assoc]

/-- What is decoded has the first bits of the characters. -/
theorem bytesBits_eq_take {s k : List Byte} (run : scan s 0 0 0 [] = .bytes k) :
    bytesBits k = (charsBits s).take (8 * k.length) := by
  obtain ⟨discarded, moved⟩ := bytesBits_scan (by decide) run
  have all : charsBits s = bytesBits k ++ discarded := moved
  rw [all, List.take_left' (length_bytesBits k)]

/-- The value of a character, by ranges (R102, R103). -/
theorem charValue_eq {c : Byte} (inside : InAlphabet c) :
    charValue c =
      if 0x41 ≤ c.toNat ∧ c.toNat ≤ 0x5A then c.toNat - 0x41
      else if 0x61 ≤ c.toNat ∧ c.toNat ≤ 0x7A then c.toNat - 0x61
      else c.toNat - 0x32 + 26 := by
  rcases inside with ⟨lo, hi⟩ | ⟨lo, hi⟩ | ⟨lo, hi⟩
  · rw [charValue_eq_of_some (alphabetValue_upper lo hi), if_pos ⟨lo, hi⟩]
  · rw [charValue_eq_of_some (alphabetValue_lower lo hi), if_neg (by omega), if_pos ⟨lo, hi⟩]
  · rw [charValue_eq_of_some (alphabetValue_digit lo hi), if_neg (by omega), if_neg (by omega)]

/-- A secret that decodes has characters of the alphabet only. -/
theorem inAlphabet_of_scan_eq_bytes {s out : List Byte} {i acc nbits : Nat} {k : List Byte}
    (run : scan s i acc nbits k = .bytes out) {c : Byte} (mem : c ∈ s) : InAlphabet c := by
  by_contra outside
  obtain ⟨j, d, failed⟩ := exists_scan_eq_invalid_of_mem ((alphabetValue_eq_none_iff c).mpr outside) mem i acc nbits k
  rw [failed] at run
  cases run

/-- Settles O39: the scan moves the characters' bits into the bytes. -/
theorem decodedBits : Obligations.DecodedBits := by
  intro s k run
  have bits := bytesBits_eq_take run
  have values := fun c mem => congrArg (bitsOf 5) (charValue_eq (c := c) (inAlphabet_of_scan_eq_bytes run mem))
  rw [charsBits, List.flatMap_congr values] at bits
  exact bits

/-! ### RFC 4648's encoder (R108) -/

/-- `e` is a string of characters that hold the bits. -/
structure Encodes (e : List Byte) (bits : List Bool) : Prop where
  valid : ∀ c ∈ e, InAlphabet c
  bits : charsBits e = bits

theorem charValue_alphabetChar : ∀ v < 32, charValue (alphabetChar v) = v := by decide

theorem inAlphabet_alphabetChar : ∀ v < 32, InAlphabet (alphabetChar v) := by
  unfold InAlphabet
  decide

theorem Encodes.cons {v : Nat} (lt : v < 32) {e : List Byte} {bits : List Bool} (rest : Encodes e bits) :
    Encodes (alphabetChar v :: e) (bitsOf 5 v ++ bits) where
  valid := List.forall_mem_cons.mpr ⟨inAlphabet_alphabetChar v lt, rest.valid⟩
  bits := by rw [charsBits, List.flatMap_cons, charValue_alphabetChar v lt, ← charsBits, rest.bits]

theorem bitsOf_zero (w : Nat) : bitsOf w 0 = List.replicate w false := by
  simp [bitsOf, List.map_const']

/-- The encoder at its end: no bit is pending, or the last group is filled with zero bits. -/
theorem encodes_encodeBits_nil {acc nbits : Nat} (few : nbits ≤ 4) (lt : acc < 2 ^ nbits) :
    ∃ z < 5, Encodes (encodeBits [] acc nbits) (bitsOf nbits acc ++ List.replicate z false) := by
  by_cases none : nbits = 0
  · subst none
    exact ⟨0, by decide, nofun, rfl⟩
  · refine ⟨5 - nbits, by omega, ?_⟩
    have filled : bitsOf 5 (acc * 2 ^ (5 - nbits)) = bitsOf nbits acc ++ List.replicate (5 - nbits) false := by
      have split := bitsOf_mul_add nbits (b := 5 - nbits) (Nat.two_pow_pos _) acc
      rwa [bitsOf_zero, Nat.add_zero, Nat.add_sub_cancel' (by omega)] at split
    have small : acc * 2 ^ (5 - nbits) < 32 := by
      calc acc * 2 ^ (5 - nbits) < 2 ^ nbits * 2 ^ (5 - nbits) := Nat.mul_lt_mul_of_pos_right lt (Nat.two_pow_pos _)
        _ = 32 := by rw [← Nat.pow_add, Nat.add_sub_cancel' (by omega)]
    rw [encodeBits, if_neg none, ← filled]
    have char := Encodes.cons small (e := []) (bits := []) ⟨nofun, rfl⟩
    rwa [List.append_nil] at char

/-- The encoder at a byte that completes two characters. -/
theorem encodeBits_cons_two {nbits : Nat} (two : 2 ≤ nbits) (b : Byte) (rest : List Byte) (acc : Nat) :
    encodeBits (b :: rest) acc nbits =
      alphabetChar ((acc * 256 + b.toNat) / 2 ^ (nbits + 3)) ::
        alphabetChar ((acc * 256 + b.toNat) / 2 ^ (nbits - 2) % 32) ::
          encodeBits rest ((acc * 256 + b.toNat) % 2 ^ (nbits - 2)) (nbits - 2) := by
  simp only [encodeBits]
  rw [if_pos (by omega), show nbits + 8 - 5 = nbits + 3 by omega, show nbits + 8 - 10 = nbits - 2 by omega]

/-- The encoder at a byte that completes one character. -/
theorem encodeBits_cons_one {nbits : Nat} (one : ¬ 2 ≤ nbits) (b : Byte) (rest : List Byte) (acc : Nat) :
    encodeBits (b :: rest) acc nbits =
      alphabetChar ((acc * 256 + b.toNat) / 2 ^ (nbits + 3)) ::
        encodeBits rest ((acc * 256 + b.toNat) % 2 ^ (nbits + 3)) (nbits + 3) := by
  simp only [encodeBits]
  rw [if_neg (by omega), show nbits + 8 - 5 = nbits + 3 by omega]

/-- The first five of `nbits` bits and a byte's. -/
theorem bitsOf_add_eight (nbits a : Nat) :
    bitsOf (nbits + 8) a = bitsOf 5 (a / 2 ^ (nbits + 3)) ++ bitsOf (nbits + 3) (a % 2 ^ (nbits + 3)) := by
  rw [show nbits + 8 = 5 + (nbits + 3) by omega, bitsOf_add, bitsOf_mod (Nat.le_refl _)]

/-- The next five of them, if there are as many. -/
theorem bitsOf_add_three {nbits : Nat} (two : 2 ≤ nbits) (a : Nat) :
    bitsOf (nbits + 3) (a % 2 ^ (nbits + 3)) =
      bitsOf 5 (a / 2 ^ (nbits - 2) % 32) ++ bitsOf (nbits - 2) (a % 2 ^ (nbits - 2)) := by
  have group : bitsOf 5 (a / 2 ^ (nbits - 2) % 32) = bitsOf 5 (a / 2 ^ (nbits - 2)) :=
    bitsOf_mod (n := 5) (Nat.le_refl 5) _
  rw [bitsOf_mod (Nat.le_refl _), bitsOf_mod (Nat.le_refl _), group, ← bitsOf_add,
    show 5 + (nbits - 2) = nbits + 3 by omega]

/-- The encoder keeps all bits, in order, and fills up with fewer than five zero bits. -/
theorem encodes_encodeBits (k : List Byte) {acc nbits : Nat} (few : nbits ≤ 4) (lt : acc < 2 ^ nbits) :
    ∃ z < 5, Encodes (encodeBits k acc nbits) (bitsOf nbits acc ++ bytesBits k ++ List.replicate z false) := by
  induction k generalizing acc nbits with
  | nil =>
    rw [bytesBits, List.flatMap_nil, List.append_nil]
    exact encodes_encodeBits_nil few lt
  | cons b rest ih =>
    have pending : bitsOf nbits acc ++ bytesBits (b :: rest) =
        bitsOf (nbits + 8) (acc * 256 + b.toNat) ++ bytesBits rest := by
      have joined : bitsOf (nbits + 8) (acc * 256 + b.toNat) = bitsOf nbits acc ++ bitsOf 8 b.toNat :=
        bitsOf_mul_add nbits b.isLt acc
      rw [joined, bytesBits, List.flatMap_cons, List.append_assoc]
      rfl
    have first : (acc * 256 + b.toNat) / 2 ^ (nbits + 3) < 32 := by
      have := b.isLt
      refine Nat.div_lt_of_lt_mul ?_
      rw [Nat.pow_add]
      omega
    rw [pending]
    by_cases two : 2 ≤ nbits
    · rw [encodeBits_cons_two two]
      generalize acc * 256 + b.toNat = a at first
      obtain ⟨z, fill, encoded⟩ := ih (acc := a % 2 ^ (nbits - 2)) (nbits := nbits - 2) (by omega)
        (Nat.mod_lt _ (Nat.two_pow_pos _))
      refine ⟨z, fill, ?_⟩
      rw [bitsOf_add_eight, bitsOf_add_three two]
      simpa only [List.append_assoc] using (encoded.cons (Nat.mod_lt _ (by decide))).cons first
    · rw [encodeBits_cons_one two]
      generalize acc * 256 + b.toNat = a at first
      obtain ⟨z, fill, encoded⟩ := ih (acc := a % 2 ^ (nbits + 3)) (nbits := nbits + 3) (by omega)
        (Nat.mod_lt _ (Nat.two_pow_pos _))
      refine ⟨z, fill, ?_⟩
      rw [bitsOf_add_eight]
      simpa only [List.append_assoc] using encoded.cons first

/-! ### The round trip (R108) -/

/-- A string of characters that hold a key's bits and fewer than five more decodes to the key. -/
theorem Encodes.scan_eq {e k : List Byte} {z : Nat} (fill : z < 5)
    (enc : Encodes e (bytesBits k ++ List.replicate z false)) : scan e 0 0 0 [] = .bytes k := by
  obtain ⟨out, run⟩ := exists_scan_eq_bytes enc.valid 0 0 0 []
  have bits := bytesBits_eq_take run
  have outLen := scan_length (by decide) run
  have chars := congrArg List.length enc.bits
  rw [length_charsBits, List.length_append, length_bytesBits, List.length_replicate] at chars
  rw [List.length_nil] at outLen
  have sameLen : out.length = k.length := by omega
  rw [enc.bits, sameLen, List.take_left' (length_bytesBits k)] at bits
  rw [run, bytesBits_injective bits]

theorem ne_pad_of_inAlphabet {c : Byte} (inside : InAlphabet c) : c ≠ 0x3D#8 := by
  rintro rfl
  unfold InAlphabet at inside
  revert inside
  decide

/-- The strip takes the padding off and no character. -/
theorem stripPad_append_pad {e : List Byte} (valid : ∀ c ∈ e, InAlphabet c) (n : Nat) :
    stripPad (e ++ List.replicate n 0x3D#8) = e := by
  have pads : ∀ c ∈ List.replicate n 0x3D#8, (c == 0x3D#8) = true := fun c mem =>
    beq_iff_eq.mpr (List.eq_of_mem_replicate mem)
  rw [stripPad, List.reverse_append, List.reverse_replicate, List.dropWhile_append_of_pos pads, ← stripPad,
    stripPad_eq_rdropWhile, List.rdropWhile_eq_self_iff]
  intro nonempty pad
  exact ne_pad_of_inAlphabet (valid _ (List.getLast_mem nonempty)) (beq_iff_eq.mp pad)

/-- Such a string decodes with any number of `=` after it. -/
theorem Encodes.base32Decode_eq {e k : List Byte} {z : Nat} (fill : z < 5)
    (enc : Encodes e (bytesBits k ++ List.replicate z false)) (n : Nat) :
    base32Decode (e ++ List.replicate n 0x3D#8) = .bytes k := by
  rw [base32Decode, stripPad_append_pad enc.valid]
  exact enc.scan_eq fill

theorem lowerCase_of_not_upper {c : Byte} (other : ¬ (0x41 ≤ c.toNat ∧ c.toNat ≤ 0x5A)) :
    lowerCase c = c := if_neg other

/-- The decoder folds back what `lowerCase` changes (R102). -/
theorem foldCase_lowerCase (c : Byte) : foldCase (lowerCase c) = foldCase c := by
  by_cases upper : 0x41 ≤ c.toNat ∧ c.toNat ≤ 0x5A
  · have low : (c + 0x20#8).toNat = c.toNat + 0x20 := by
      rw [BitVec.toNat_add, BitVec.toNat_ofNat]
      omega
    rw [lowerCase, if_pos upper, foldCase, if_pos (by rw [low]; omega), BitVec.add_sub_cancel,
      foldCase_of_not_lower (by omega)]
  · rw [lowerCase_of_not_upper upper]

theorem Encodes.map_lowerCase {e : List Byte} {bits : List Bool} (enc : Encodes e bits) :
    Encodes (e.map lowerCase) bits where
  valid := by
    refine List.forall_mem_map.mpr fun c mem => ?_
    by_contra outside
    rw [← alphabetValue_eq_none_iff, foldCase_lowerCase, alphabetValue_eq_none_iff] at outside
    exact outside (enc.valid c mem)
  bits := by
    rw [← enc.bits, charsBits, List.flatMap_map]
    simp only [charValue, foldCase_lowerCase]
    rfl

/-- Settles O40: the encoding and its lower-case form hold the key's bits and fewer than five zero bits, and padding is
stripped. -/
theorem base32RoundTrip : Obligations.Base32RoundTrip := by
  intro k _
  obtain ⟨z, fill, enc⟩ := encodes_encodeBits k (acc := 0) (nbits := 0) (by decide) (by decide)
  have upper (n : Nat) : base32Decode (base32Encode k ++ List.replicate n 0x3D#8) = .bytes k :=
    enc.base32Decode_eq fill n
  have lower (n : Nat) : base32Decode ((base32Encode k ++ List.replicate n 0x3D#8).map lowerCase) = .bytes k := by
    rw [List.map_append, List.map_replicate, show lowerCase 0x3D#8 = 0x3D#8 by decide]
    exact enc.map_lowerCase.base32Decode_eq fill n
  have noPad : base32Encode k = base32Encode k ++ List.replicate 0 0x3D#8 := (List.append_nil _).symm
  exact ⟨noPad ▸ upper 0, upper _, noPad ▸ lower 0, lower _⟩

end Sys2Proof.Machine
end
